-- ==== Sys2Proof/Word.lean ====
section
/-! DEFINITION. The word types of the block: 32-bit bus words, 256-bit field elements, the 512-bit product. -/

namespace Sys2Proof

/-- A bus word, and every control, status and identification register: 32 bits (R11). -/
abbrev Word := BitVec 32

/-- A field element or field register: 256 bits (R11). -/
abbrev Elem := BitVec 256

/-- The double-width product register ENG.T: 512 bits (R11, R45). -/
abbrev Wide := BitVec 512

/-- One byte lane of the bus (R77). -/
abbrev Byte := BitVec 8

/-- A window offset: 12 bits (R71). -/
abbrev Off := BitVec 12

/-- A field register number: every 3-bit value names a register (R22, R102). -/
abbrev FReg := Fin 8

/-- The number of a 32-bit word inside a 256-bit value, 0 the least significant (R9, R78). -/
abbrev WordIdx := Fin 8

end Sys2Proof
end

