-- ==== Sys2Proof/Config.lean ====
section
/-! DEFINITION. The parameters of the block (R7) and its free values. -/

namespace Sys2Proof

/-- The OPEN parameters of R7 that the rules depend on. They are arguments of the model: carried as plain
data in State, changed by no step, arbitrary in every statement about a state (assumption 2).
BUS_PROTOCOL and LAT_* affect no rule (R276) and are left out (assumption 11). -/
structure Config where
  /-- EXT_OPS: HLV, DBL and TPL are present (R5). -/
  extOps : Bool
  /-- BASE / 4096: BASE is 4096-byte aligned (R70). -/
  basePage : Nat
  deriving DecidableEq, Repr

/-- BASE, the byte address of the register window (R70). -/
def Config.base (cfg : Config) : Nat := 4096 * cfg.basePage

/-- FREE VALUE (assumption 4): what stands in the scratch register ENG.T once `t` has gone through it; the
contents are implementation-defined (R46). The number draws a fresh value each time. -/
opaque Config.scratch : Wide → Nat → Wide

end Sys2Proof
end

