-- ==== Sys2Proof/Syntax.lean ====
section
/-! DEFINITION. The commands of the block, one constructor per row of spec/opcode_table.json. -/

namespace Sys2Proof

/-- A command (R103). Operands in assembler order: rd, rs1 and, for MUL, ADD and SUB, rs2 (R110).
The rs2 field of a one-operand command is ignored (R107) and is no part of the command. -/
inductive Instr where
  /-- Montgomery domain encode, R132. -/
  | enc (rd rs1 : FReg)
  /-- Montgomery domain decode, R133. -/
  | dec (rd rs1 : FReg)
  /-- Montgomery multiply, R134. -/
  | mul (rd rs1 rs2 : FReg)
  /-- Montgomery square, R135. -/
  | sqr (rd rs1 : FReg)
  /-- Modular add, R163. -/
  | add (rd rs1 rs2 : FReg)
  /-- Modular subtract, R164. -/
  | sub (rd rs1 rs2 : FReg)
  /-- Modular negate, R165. -/
  | neg (rd rs1 : FReg)
  /-- Modular halve, R166. -/
  | hlv (rd rs1 : FReg)
  /-- Modular double, R167. -/
  | dbl (rd rs1 : FReg)
  /-- Modular triple, R168. -/
  | tpl (rd rs1 : FReg)
  deriving DecidableEq, Repr

end Sys2Proof
end

