-- ==== Sys2Proof/Machine/State.lean ====
section
/-! DEFINITION. The state of the block (R20), the inputs of its step, and its state after reset (R50). -/

namespace Sys2Proof.Machine

/-- The operation ENG.OPC holds (R45, R103). Only acceptance of a legal command and reset write it, so it
holds no other code. -/
inductive Op where
  | enc | dec | mul | sqr | add | sub | neg | hlv | dbl | tpl
  deriving DecidableEq, Repr

/-- The error codes that STATUS.ECODE can hold (R221); codes 6-15 are never produced. -/
inductive ErrCode where
  /-- Code 0: no error recorded. -/
  | none
  /-- Code 1. -/
  | illegalCmd
  /-- Code 2. -/
  | range
  /-- Code 3. -/
  | busyCmd
  /-- Code 4. -/
  | busyWrite
  /-- Code 5. -/
  | badAccess
  deriving DecidableEq, Repr

/-- The two agents that step (R12). -/
inductive Agent where
  | host | engine
  deriving DecidableEq, Repr

/-- The direction of a bus transaction (R190). -/
inductive Dir where
  | read | write
  deriving DecidableEq, Repr

/-- One bus transaction (R190): direction, byte address (`BASE + off`), size in bytes, write data. -/
structure Txn where
  dir : Dir
  addr : Nat
  size : Nat
  data : Word
  deriving DecidableEq, Repr

/-- What can happen next at the block: a HOST transaction, the ENGINE's turn, a new level of the pin `rst_n`
(R12, R85). -/
inductive Event where
  | host (t : Txn)
  | engine
  | rstN (level : Bool)
  deriving DecidableEq, Repr

/-- The hidden engine state (R45). -/
structure Engine where
  opc : Op
  rd : FReg
  a : Elem
  b : Elem
  t : Wide
  deriving DecidableEq, Repr

/-- The writable state of the block (R20 (1), (3), (5)). The constant ROM and the identification registers
(R20 (2), (4)) never change and are constants (assumption 13); `irq` is a function (R48). -/
structure Block where
  /-- F0-F7 (R22). -/
  f : Vector Elem 8
  /-- CTRL.IE (R37). -/
  ie : Bool
  /-- STATUS.BUSY (R39). -/
  busy : Bool
  /-- STATUS.DONE (R40). -/
  done : Bool
  /-- STATUS.ERR (R41). -/
  err : Bool
  /-- STATUS.EOVF (R41). -/
  eovf : Bool
  /-- STATUS.ECODE (R41). -/
  ecode : ErrCode
  /-- STATUS.RANGE_OPS (R41): bit 0 for rs1, bit 1 for rs2. -/
  rangeOps : BitVec 2
  /-- The CMD readback value (R42). -/
  cmdrb : Word
  /-- ERRINFO (R43). -/
  errinfo : Word
  /-- ENG (R45). -/
  eng : Engine
  deriving DecidableEq, Repr

/-- The block, its parameters, its input pin, and the model's own bookkeeping of the interleaving. -/
structure State where
  /-- The parameters; no step changes them (R20, assumption 2). -/
  cfg : Config
  /-- The block's own state. -/
  blk : Block
  /-- The level of the pin `rst_n`, active low: false = reset asserted (R260). -/
  rstN : Bool
  /-- MODEL: whose step is being, or was last, performed (assumption 6). -/
  turn : Agent
  /-- MODEL: the read data of the last step, none where it was no read that reached the block (assumption 7). -/
  rdata : Option Word
  /-- MODEL: the events to come, in their order (R85, assumption 1). -/
  inbox : List Event
  /-- MODEL: the counter free values are drawn with (assumption 4). -/
  freeCount : Nat
  deriving DecidableEq, Repr

/-- Why a step stops with a fault. The block has none: every transaction in every state has exactly one
outcome and the ENGINE step cannot fail (R209, R220, R241). -/
inductive Fault where
  deriving DecidableEq, Repr

/-- Why a step is refused. -/
inductive Refusal where
  /-- The model gives the instruction no meaning yet: raised by an arm of exec alone; safe. No arm does. -/
  | notModelled (mnemonic : String)
  deriving DecidableEq, Repr

/-- Every piece of block state after a hardware or soft reset (R50). ENG.OPC = 0 is ENC's code. -/
def Block.reset : Block where
  f := Vector.replicate 8 0
  ie := false
  busy := false
  done := false
  err := false
  eovf := false
  ecode := .none
  rangeOps := 0
  cmdrb := 0
  errinfo := 0
  eng := ⟨.enc, 0, 0, 0, 0⟩

/-- The machine right after a hardware reset, in a given configuration: the block as R50 says, `rst_n`
deasserted again, and the model's own fields empty (assumptions 10, 21). -/
def State.resetOf (cfg : Config) : State where
  cfg := cfg
  blk := Block.reset
  rstN := true
  turn := .host
  rdata := none
  inbox := []
  freeCount := 0

/-- The machine right after reset. DESIGN CHOICE: EXT_OPS = true and BASE = 0, which the spec leaves OPEN
(assumption 2). -/
def State.reset : State := State.resetOf ⟨true, 0⟩

end Sys2Proof.Machine
end

