-- ==== Sys2Proof/Machine/Flags.lean ====
section
/-! DEFINITION. The status word, its write-1-to-clear, the control word and `irq`. The block has no arithmetic
flags (R49): a command writes BUSY and DONE only, in Machine/Ops.lean. -/

namespace Sys2Proof.Machine

/-- The 4-bit value STATUS.ECODE reads as (R221). -/
def ErrCode.code : ErrCode → BitVec 4
  | .none => 0
  | .illegalCmd => 1
  | .range => 2
  | .busyCmd => 3
  | .busyWrite => 4
  | .badAccess => 5

/-- A flag as the least significant bit of a bus word. -/
def bitWord (x : Bool) : Word := (BitVec.ofBool x).setWidth 32

/-- StatusWord (R197). -/
def statusWord (b : Block) : Word :=
  bitWord b.busy ||| (bitWord b.done <<< 1) ||| (bitWord b.err <<< 2) ||| (bitWord b.eovf <<< 3) |||
    (b.ecode.code.setWidth 32 <<< 4) ||| (b.rangeOps.setWidth 32 <<< 8)

/-- The value a CTRL read returns (R195). -/
def ctrlWord (b : Block) : Word := bitWord b.ie

/-- `irq`, a level (R48, R236). -/
def Block.irq (b : Block) : Bool := b.ie && (b.done || b.err)

/-- The output pin `irq` of the machine (R48). -/
def irq (s : State) : Bool := s.blk.irq

end Sys2Proof.Machine
end

