-- ==== Sys2Proof/WellFormed.lean ====
section
/-! DEFINITION. Which commands exist in a configuration. Register operands are well formed by their type. -/

namespace Sys2Proof

/-- HLV, DBL and TPL are present exactly when EXT_OPS is true; the others always (R5, R103). -/
def Instr.wf (cfg : Config) : Instr → Bool
  | .hlv _ _ | .dbl _ _ | .tpl _ _ => cfg.extOps
  | .enc _ _ | .dec _ _ | .mul _ _ _ | .sqr _ _ | .add _ _ _ | .sub _ _ _ | .neg _ _ => true

end Sys2Proof
end

