-- ==== Sys2Proof/Decode.lean ====
section
/-! DEFINITION. The command decoder of R120, total on every 32-bit word, and the encoder of R101, R110. -/

namespace Sys2Proof

/-- CAPS: bit o is 1 exactly when opcode o is legal (R35, R104). -/
def caps (cfg : Config) : Word :=
  if cfg.extOps then 0x000007EF#32 else 0x000000EF#32

/-- The reserved bits 7, 11 and 31:15 are all 0 (R105). -/
def reservedClear (c : Word) : Bool := c &&& 0xFFFF8880#32 == 0#32

/-- Bits [3:0] of a command word (R101). -/
def opcodeField (c : Word) : BitVec 4 := c.extractLsb' 0 4

/-- The 3-bit register field at bits [lo+2:lo] of a command word (R101, R102). -/
def regField (c : Word) (lo : Nat) : FReg := (c.extractLsb' lo 3).toFin

/-- The opcode map of R103: opcode 4 and opcodes 11-15 name no command. -/
def ofOpcode (o : BitVec 4) (rd rs1 rs2 : FReg) : Option Instr :=
  match o.toNat with
  | 0 => some (.enc rd rs1)
  | 1 => some (.dec rd rs1)
  | 2 => some (.mul rd rs1 rs2)
  | 3 => some (.sqr rd rs1)
  | 5 => some (.add rd rs1 rs2)
  | 6 => some (.sub rd rs1 rs2)
  | 7 => some (.neg rd rs1)
  | 8 => some (.hlv rd rs1)
  | 9 => some (.dbl rd rs1)
  | 10 => some (.tpl rd rs1)
  | _ => none

/-- Decode (R120): `none` is Illegal. -/
def decode (cfg : Config) (c : Word) : Option Instr :=
  if reservedClear c && (caps cfg).getLsbD (opcodeField c).toNat then
    ofOpcode (opcodeField c) (regField c 4) (regField c 8) (regField c 12)
  else none

/-- The opcode of a command (R103). -/
def Instr.opcode : Instr → BitVec 4
  | .enc _ _ => 0
  | .dec _ _ => 1
  | .mul _ _ _ => 2
  | .sqr _ _ => 3
  | .add _ _ _ => 5
  | .sub _ _ _ => 6
  | .neg _ _ => 7
  | .hlv _ _ => 8
  | .dbl _ _ => 9
  | .tpl _ _ => 10

/-- The destination register field of a command. -/
def Instr.rd : Instr → FReg
  | .enc rd _ | .dec rd _ | .mul rd _ _ | .sqr rd _ | .add rd _ _ | .sub rd _ _
  | .neg rd _ | .hlv rd _ | .dbl rd _ | .tpl rd _ => rd

/-- The first source register field of a command. -/
def Instr.rs1 : Instr → FReg
  | .enc _ rs1 | .dec _ rs1 | .mul _ rs1 _ | .sqr _ rs1 | .add _ rs1 _ | .sub _ rs1 _
  | .neg _ rs1 | .hlv _ rs1 | .dbl _ rs1 | .tpl _ rs1 => rs1

/-- The second source register field; none where the command does not read one (R103). -/
def Instr.rs2 : Instr → Option FReg
  | .mul _ _ rs2 | .add _ _ rs2 | .sub _ _ rs2 => some rs2
  | .enc _ _ | .dec _ _ | .sqr _ _ | .neg _ _ | .hlv _ _ | .dbl _ _ | .tpl _ _ => none

/-- The command word `(rs2 << 12) | (rs1 << 8) | (rd << 4) | opcode`, unused fields 0 (R101, R110). -/
def encode (i : Instr) : Word :=
  (BitVec.ofNat 32 (i.rs2.getD 0).val <<< 12) ||| (BitVec.ofNat 32 i.rs1.val <<< 8) |||
    (BitVec.ofNat 32 i.rd.val <<< 4) ||| i.opcode.setWidth 32

/-- The bits of a command word that the decoder does not ignore: all of them for MUL, ADD and SUB, all but
the rs2 field [14:12] for the others (R107). -/
def Instr.usedBits (i : Instr) : Word :=
  if i.rs2.isSome then 0xFFFFFFFF#32 else 0xFFFF8FFF#32

/-- The decoder on a word of the opcode table. The table lists every row of both configurations, so this is
the decoder of a block with EXT_OPS. A command word is data on a 32-bit bus, so its bits are numbered as the
table numbers them; there is no other layout (R79, R100). -/
def decodeTableWord (_nbits w : Nat) : Option Instr :=
  if w < 4294967296 then decode ⟨true, 0⟩ (BitVec.ofNat 32 w) else none

end Sys2Proof
end

