-- ==== Sys2Proof/Machine/Rom.lean ====
section
/-! DEFINITION. The constant ROM and the identification constants (R26-R36). -/

namespace Sys2Proof.Machine

/-- The modulus p = 2^256 - 2^224 - 2^96 + 2^64 - 1 (R27). -/
def Rom.p : Nat := 0xFFFFFFFEFFFFFFFFFFFFFFFFFFFFFFFFFFFFFFFF00000000FFFFFFFFFFFFFFFF

/-- The constant P of the ROM (R26, R27). -/
def Rom.P : Elem := BitVec.ofNat 256 Rom.p

/-- R_SQUARED = 2^512 mod p, the encode multiplier (R28). -/
def Rom.R2 : Elem := 0x0000000400000002000000010000000100000002FFFFFFFF0000000200000003#256

/-- ONE = 1, the decode multiplier (R29, conflict C1). -/
def Rom.ONE : Elem := 1#256

/-- inv(R) mod p for R = 2^256 (R30). -/
def Rom.invR : Nat := 0xFFFFFFFB00000005FFFFFFFC00000002FFFFFFFD00000006FFFFFFF900000004

/-- ID (R33). -/
def Rom.ID : Word := 0x50324D53#32

/-- BITLEN (R34). -/
def Rom.BITLEN : Word := 0x00000100#32

/-- NREGS (R36). -/
def Rom.NREGS : Word := 0x00000008#32

end Sys2Proof.Machine
end

