-- ==== Sys2Proof/Machine/Operands.lean ====
section
/-! DEFINITION. Reading and writing field registers and their words, the range check of an operand, and the
operands latched for each command. -/

namespace Sys2Proof.Machine

/-- `v.w[k]`: word k of a 256-bit value is bits [32k+31:32k] (R9, R10). -/
def word (v : Elem) (k : WordIdx) : Word := v.extractLsb' (32 * k.val) 32

/-- `v.w[k] <- w`: the other seven words unchanged (R10, R201). -/
def setWord (v : Elem) (k : WordIdx) (w : Word) : Elem :=
  (v &&& ~~~((0xFFFFFFFF#256) <<< (32 * k.val))) ||| (w.setWidth 256 <<< (32 * k.val))

/-- Byte lane k of a bus word is bits [8k+7:8k]: little-endian (R77). -/
def byteLane (w : Word) (k : Fin 4) : Byte := w.extractLsb' (8 * k.val) 8

/-- `F[i]` (R10). No register is hardwired (R24). -/
def Block.readF (b : Block) (i : FReg) : Elem := b.f[i]

/-- `F[i] <- v` (R10). -/
def Block.writeF (b : Block) (i : FReg) (v : Elem) : Block := { b with f := b.f.set i v }

/-- The range check compares the full 256-bit value with p, unsigned; p itself is out of range (R204). -/
def outOfRange (v : Elem) : Bool := decide (Rom.p ≤ v.toNat)

/-- The operation of a command (R103). -/
def opOf : Instr → Op
  | .enc _ _ => .enc
  | .dec _ _ => .dec
  | .mul _ _ _ => .mul
  | .sqr _ _ => .sqr
  | .add _ _ _ => .add
  | .sub _ _ _ => .sub
  | .neg _ _ => .neg
  | .hlv _ _ => .hlv
  | .dbl _ _ => .dbl
  | .tpl _ _ => .tpl

/-- The command an operation code and its register numbers make. -/
def Op.instr (o : Op) (rd rs1 rs2 : FReg) : Instr :=
  match o with
  | .enc => .enc rd rs1
  | .dec => .dec rd rs1
  | .mul => .mul rd rs1 rs2
  | .sqr => .sqr rd rs1
  | .add => .add rd rs1 rs2
  | .sub => .sub rd rs1 rs2
  | .neg => .neg rd rs1
  | .hlv => .hlv rd rs1
  | .dbl => .dbl rd rs1
  | .tpl => .tpl rd rs1

/-- The 4-bit code of an operation, as ENG.OPC holds it (R45, R103). -/
def Op.code (o : Op) : BitVec 4 := (o.instr 0 0 0).opcode

/-- The command in flight. ENG keeps its operation and its destination; its operands are latched, so its
source register numbers are no longer needed (R45, R203) and stand here as 0. -/
def Engine.instr (e : Engine) : Instr := e.opc.instr e.rd 0 0

/-- Out of range rs2: only for the commands that read rs2 (R202 ReadsRs2, R204). -/
def badRs2 (b : Block) (i : Instr) : Bool :=
  match i.rs2 with
  | some r => outOfRange (b.readF r)
  | none => false

/-- `OperandB`: what ENG.B latches, per opcode (R203). -/
def operandB (b : Block) : Instr → Elem
  | .enc _ _ => Rom.R2
  | .dec _ _ => Rom.ONE
  | .mul _ _ rs2 | .add _ _ rs2 | .sub _ _ rs2 => b.readF rs2
  | .sqr _ rs1 => b.readF rs1
  | .neg _ _ | .hlv _ _ | .dbl _ _ | .tpl _ _ => 0

end Sys2Proof.Machine
end

