-- ==== Sys2Proof/Machine/Ops.lean ====
section
/-! DEFINITION. The shared operations: recording and clearing an error, reset, acceptance and completion of a
command, and the shape every command's meaning has. -/

namespace Sys2Proof.Machine

/-! ## Errors: the block's only "exceptions" (R220) -/

/-- `raise Error(code, info, ops)` (R224): the first error is recorded, a later one sets only EOVF. -/
def raiseError (code : ErrCode) (info : Word) (ops : BitVec 2) (b : Block) : Block :=
  if b.err then { b with eovf := true }
  else { b with err := true, ecode := code, rangeOps := ops, errinfo := info }

/-- Clearing the error record: the block's only "return from error" (R231). -/
def clearError (b : Block) : Block :=
  { b with err := false, eovf := false, ecode := .none, rangeOps := 0, errinfo := 0 }

/-- ERRINFO for codes 4 and 5: `zext_32(off) | (size[3:0] << 12) | (dir << 16)` (R228). -/
def accessInfo (off : Off) (size : Nat) (dir : Dir) : Word :=
  off.setWidth 32 ||| ((BitVec.ofNat 4 size).setWidth 32 <<< 12) |||
    (bitWord (dir == .write) <<< 16)

/-- RANGE_OPS: bit 0 for rs1, bit 1 for rs2 (R229). -/
def rangeBits (bad1 bad2 : Bool) : BitVec 2 :=
  ((BitVec.ofBool bad2).setWidth 2 <<< 1) ||| (BitVec.ofBool bad1).setWidth 2

/-- DONE <- 0: by a CMD write made while BUSY = 0, and by writing 1 to STATUS bit 1 (R40). -/
def clearDone (b : Block) : Block := { b with done := false }

/-! ## Reset -/

/-- HardReset (R261), and SoftReset, which is the same (R263): every piece of writable state takes its reset
value; the constants and the parameters stay. -/
def hardReset (_ : Block) : Block := Block.reset

/-! ## The two halves of a command -/

/-- The part of CmdWrite that every command word has in common once it is in CMDRB (R202): while BUSY = 1 the
word is dropped with BUSY_CMD; otherwise DONE is cleared and `k` goes on. -/
def whenIdle (k : State → State) (s : State) : State :=
  if s.blk.busy then { s with blk := raiseError .busyCmd s.blk.cmdrb 0 s.blk }
  else k { s with blk := clearDone s.blk }

/-- ILLEGAL_CMD: nothing is latched and BUSY stays 0 (R222). -/
def refuseIllegal (s : State) : State :=
  { s with blk := raiseError .illegalCmd s.blk.cmdrb 0 s.blk }

/-- RANGE: nothing is latched and BUSY stays 0 (R223, R229). -/
def refuseRange (bad1 bad2 : Bool) (s : State) : State :=
  { s with blk := raiseError .range s.blk.cmdrb (rangeBits bad1 bad2) s.blk }

/-- The latch of an accepted command (R202). ENG.T is scratch from here on: a free value (R46). -/
def latch (o : Op) (rd : FReg) (a b : Elem) (s : State) : State :=
  { s with
    blk := { s.blk with
      busy := true
      eng := { opc := o, rd := rd, a := a, b := b, t := Config.scratch s.blk.eng.t s.freeCount } }
    freeCount := s.freeCount + 1 }

/-- Acceptance of command `i` (R202), its word standing in CMDRB: BUSY_CMD, then DONE cleared, then ILLEGAL_CMD
(where the block has no such command, R104), then RANGE, then the latch (R234). -/
def accept (i : Instr) (s : State) : State :=
  s |> whenIdle fun s =>
    let bad1 := outOfRange (s.blk.readF i.rs1)
    let bad2 := badRs2 s.blk i
    if !i.wf s.cfg then refuseIllegal s
    else if bad1 || bad2 then refuseRange bad1 bad2 s
    else latch (opOf i) i.rd (s.blk.readF i.rs1) (operandB s.blk i) s

/-- The ENGINE step is enabled exactly when BUSY = 1 and `rst_n` is not asserted (R205). -/
def engineEnabled (s : State) : Bool := s.blk.busy && s.rstN

/-- Completion (R205): the result `r` goes to F[ENG.RD], all 256 bits at once, BUSY falls and DONE rises. `t` is
what the command put through ENG.T, whose contents afterwards are a free value (R46). -/
def complete (t : Wide) (r : Elem) (s : State) : State :=
  { s with
    blk := { s.blk.writeF s.blk.eng.rd r with
      busy := false
      done := true
      eng := { s.blk.eng with t := Config.scratch t s.freeCount } }
    freeCount := s.freeCount + 1 }

/-- The meaning of a command `i`: its acceptance in a HOST step, its completion in an ENGINE step (R13). `work`
gives, from the latched operands, what goes through ENG.T and the result. While `rst_n` is asserted neither
step happens (R262); an ENGINE step that is not enabled does nothing (assumption 14). -/
def command (i : Instr) (work : Engine → Wide × Elem) (s : State) :
    Host.Outcome State Fault Refusal :=
  match s.turn with
  | .host => .next (if s.rstN then accept i s else s)
  | .engine =>
    .next (if engineEnabled s then complete (work s.blk.eng).1 (work s.blk.eng).2 s else s)

end Sys2Proof.Machine
end

