-- ==== Sys2Proof/Machine/Additive.lean ====
section
/-! DEFINITION. The additive family: ADD, SUB, NEG, HLV, DBL, TPL (41_additive.md). Sums are exact integers:
nothing wraps at 2^256 (R162). -/

namespace Sys2Proof.Machine

/-- One conditional subtraction of p: the reduction of a sum below 2p (R163). -/
def reduceOnce (n : Nat) : Elem := BitVec.ofNat 256 (if Rom.p ≤ n then n - Rom.p else n)

/-- ADD: `s <- a + b; if s >= p then s <- s - p` (R163). -/
def modAdd (a b : Elem) : Elem := reduceOnce (a.toNat + b.toNat)

/-- SUB: `if a >= b then a - b else a - b + p` (R164). -/
def modSub (a b : Elem) : Elem :=
  BitVec.ofNat 256 (if b.toNat ≤ a.toNat then a.toNat - b.toNat else a.toNat + Rom.p - b.toNat)

/-- NEG: `if a == 0 then 0 else p - a` (R165). -/
def modNeg (a : Elem) : Elem := BitVec.ofNat 256 (if a.toNat = 0 then 0 else Rom.p - a.toNat)

/-- HLV: `if a[0] == 0 then a >> 1 else (a + p) >> 1`, the sum 257 bits wide (R166). -/
def modHlv (a : Elem) : Elem :=
  BitVec.ofNat 256 (if a.getLsbD 0 then (a.toNat + Rom.p) >>> 1 else a.toNat >>> 1)

/-- DBL: `s <- 2 * a; if s >= p then s <- s - p` (R167). -/
def modDbl (a : Elem) : Elem := reduceOnce (2 * a.toNat)

/-- TPL: `(3 * a) mod p` (R168). -/
def modTpl (a : Elem) : Elem := BitVec.ofNat 256 (3 * a.toNat % Rom.p)

/-- ADD (R163). -/
def execAdd (rd rs1 rs2 : FReg) (s : State) : Host.Outcome State Fault Refusal :=
  command (.add rd rs1 rs2) (fun e => (e.t, modAdd e.a e.b)) s

/-- SUB (R164): rs1 is the minuend. -/
def execSub (rd rs1 rs2 : FReg) (s : State) : Host.Outcome State Fault Refusal :=
  command (.sub rd rs1 rs2) (fun e => (e.t, modSub e.a e.b)) s

/-- NEG (R165). -/
def execNeg (rd rs1 : FReg) (s : State) : Host.Outcome State Fault Refusal :=
  command (.neg rd rs1) (fun e => (e.t, modNeg e.a)) s

/-- HLV (R166); where EXT_OPS is false its acceptance is ILLEGAL_CMD. -/
def execHlv (rd rs1 : FReg) (s : State) : Host.Outcome State Fault Refusal :=
  command (.hlv rd rs1) (fun e => (e.t, modHlv e.a)) s

/-- DBL (R167); where EXT_OPS is false its acceptance is ILLEGAL_CMD. -/
def execDbl (rd rs1 : FReg) (s : State) : Host.Outcome State Fault Refusal :=
  command (.dbl rd rs1) (fun e => (e.t, modDbl e.a)) s

/-- TPL (R168); where EXT_OPS is false its acceptance is ILLEGAL_CMD. -/
def execTpl (rd rs1 : FReg) (s : State) : Host.Outcome State Fault Refusal :=
  command (.tpl rd rs1) (fun e => (e.t, modTpl e.a)) s

end Sys2Proof.Machine
end

