-- ==== Sys2Proof/Machine/Montgomery.lean ====
section
/-! DEFINITION. The Montgomery family: ENC, DEC, MUL, SQR (40_montgomery.md). -/

namespace Sys2Proof.Machine

/-- The full 512-bit product (R134, R138). -/
def product (a b : Elem) : Wide := BitVec.ofNat 512 (a.toNat * b.toNat)

/-- The reduction of a double-width value: `t * inv(R) mod p` (R131). -/
def montReduce (t : Wide) : Elem := BitVec.ofNat 256 (t.toNat * Rom.invR % Rom.p)

/-- MontMul(a, b) = (a * b * inv(R)) mod p, R = 2^256 (R131). -/
def montMul (a b : Elem) : Elem := montReduce (product a b)

/-- What the Montgomery commands do with the latched operands: the product goes through ENG.T, its reduction
is the result (R134, R207). -/
def montWork (e : Engine) : Wide × Elem := (product e.a e.b, montMul e.a e.b)

/-- ENC (R132): ENG.B holds R_SQUARED. -/
def execEnc (rd rs1 : FReg) (s : State) : Host.Outcome State Fault Refusal :=
  command (.enc rd rs1) montWork s

/-- DEC (R133): ENG.B holds ONE. -/
def execDec (rd rs1 : FReg) (s : State) : Host.Outcome State Fault Refusal :=
  command (.dec rd rs1) montWork s

/-- MUL (R134). -/
def execMul (rd rs1 rs2 : FReg) (s : State) : Host.Outcome State Fault Refusal :=
  command (.mul rd rs1 rs2) montWork s

/-- SQR (R135): ENG.B holds a copy of the operand; the pseudocode squares ENG.A. -/
def execSqr (rd rs1 : FReg) (s : State) : Host.Outcome State Fault Refusal :=
  command (.sqr rd rs1) (fun e => (product e.a e.a, montMul e.a e.a)) s

end Sys2Proof.Machine
end

