-- ==== Sys2Proof/Machine/Port.lean ====
section
/-! DEFINITION. The bus port: the register map (R72), host reads and writes (42_host_transactions.md), the
ENGINE's turn and the pin `rst_n`. -/

namespace Sys2Proof.Machine

/-- The locations of the register map (R72). -/
inductive Loc where
  | id | bitlen | caps | nregs | ctrl | status | cmd | errinfo
  | mod (k : WordIdx)
  | r2 (k : WordIdx)
  | field (i : FReg) (k : WordIdx)
  | reserved
  deriving DecidableEq, Repr

/-- `off[4:2]`: the word number of an offset (R73). -/
def wordNo (off : Off) : WordIdx := (off.extractLsb' 2 3).toFin

/-- `off[7:5]`: the field register number of an offset (R73). -/
def fieldNo (off : Off) : FReg := (off.extractLsb' 5 3).toFin

/-- The register map (R72, R191): the location at a 4-byte-aligned offset. -/
def locate (off : Off) : Loc :=
  if off.toNat = 0x000 then .id
  else if off.toNat = 0x004 then .bitlen
  else if off.toNat = 0x008 then .caps
  else if off.toNat = 0x00C then .nregs
  else if off.toNat = 0x010 then .ctrl
  else if off.toNat = 0x014 then .status
  else if off.toNat = 0x018 then .cmd
  else if off.toNat = 0x01C then .errinfo
  else if 0x020 ≤ off.toNat ∧ off.toNat < 0x040 then .mod (wordNo off)
  else if 0x040 ≤ off.toNat ∧ off.toNat < 0x060 then .r2 (wordNo off)
  else if 0x100 ≤ off.toNat ∧ off.toNat < 0x200 then .field (fieldNo off) (wordNo off)
  else .reserved

/-- A transaction is well formed exactly when its size is 4 and its offset a multiple of 4 (R75). -/
def wellFormed (off : Off) (size : Nat) : Bool := size == 4 && off.extractLsb' 0 2 == 0#2

/-- The window offset of a byte address; none outside the window (R70, R71). -/
def offsetOf (cfg : Config) (addr : Nat) : Option Off :=
  if cfg.base ≤ addr ∧ addr < cfg.base + 4096 then some (BitVec.ofNat 12 (addr - cfg.base)) else none

/-! ## Reads -/

/-- The value a well-formed read returns, by location (R191). -/
def readLoc (cfg : Config) (b : Block) : Loc → Word
  | .id => Rom.ID
  | .bitlen => Rom.BITLEN
  | .caps => Sys2Proof.caps cfg
  | .nregs => Rom.NREGS
  | .ctrl => ctrlWord b
  | .status => statusWord b
  | .cmd => b.cmdrb
  | .errinfo => b.errinfo
  | .mod k => word Rom.P k
  | .r2 k => word Rom.R2 k
  | .field i k => word (b.readF i) k
  | .reserved => 0

/-- What a well-formed read of a window offset returns in a state (R191). -/
def readAt (s : State) (off : Off) : Word := readLoc s.cfg s.blk (locate off)

/-- HostRead (R191). -/
def hostRead (off : Off) (size : Nat) (s : State) : State :=
  if wellFormed off size then { s with rdata := some (readAt s off) }
  else { s with
    blk := raiseError .badAccess (accessInfo off size .read) 0 s.blk
    rdata := some 0 }

/-! ## Writes -/

/-- CtrlWrite (R196): SRST resets the block and wins over IE (R264). -/
def ctrlWrite (v : Word) (b : Block) : Block :=
  if v.getLsbD 1 then hardReset b else { b with ie := v.getLsbD 0 }

/-- StatusWrite (R198): write 1 to clear. -/
def statusWrite (v : Word) (b : Block) : Block :=
  let b := if v.getLsbD 1 then clearDone b else b
  if v.getLsbD 2 then clearError b else b

/-- The offset of Fi.wk: `0x100 + 0x20 i + 4 k` (R73). -/
def fieldOff (i : FReg) (k : WordIdx) : Off := BitVec.ofNat 12 (0x100 + 0x20 * i.val + 4 * k.val)

/-- FieldWrite (R201). -/
def fieldWrite (i : FReg) (k : WordIdx) (v : Word) (b : Block) : Block :=
  if b.busy then raiseError .busyWrite (accessInfo (fieldOff i k) 4 .write) 0 b
  else b.writeF i (setWord (b.readF i) k v)

/-- CmdWrite (R202): the word goes to CMDRB; a legal command runs its acceptance, which `exec` holds; any other
word is dropped while BUSY = 1 and ILLEGAL_CMD otherwise. -/
def cmdWrite (c : Word) (s : State) : Host.Outcome State Fault Refusal :=
  let s := { s with blk := { s.blk with cmdrb := c } }
  match decode s.cfg c with
  | some i => exec i s
  | none => .next (whenIdle refuseIllegal s)

/-- HostWrite (R192). -/
def hostWrite (off : Off) (size : Nat) (v : Word) (s : State) : Host.Outcome State Fault Refusal :=
  if wellFormed off size then
    match locate off with
    | .ctrl => .next { s with blk := ctrlWrite v s.blk }
    | .status => .next { s with blk := statusWrite v s.blk }
    | .cmd => cmdWrite v s
    | .field i k => .next { s with blk := fieldWrite i k v s.blk }
    | .id | .bitlen | .caps | .nregs | .errinfo | .mod _ | .r2 _ | .reserved => .next s
  else .next { s with blk := raiseError .badAccess (accessInfo off size .write) 0 s.blk }

/-! ## The three kinds of step -/

/-- What a transaction does while `rst_n` is asserted: a read returns 0, a write has no effect (R262). -/
def hostInReset (t : Txn) (s : State) : State :=
  match t.dir with
  | .read => { s with rdata := some 0 }
  | .write => s

/-- A HOST step (R190): one transaction, whole. Outside the window it does not reach the block (R71). -/
def hostStep (t : Txn) (s : State) : Host.Outcome State Fault Refusal :=
  let s := { s with turn := .host }
  match offsetOf s.cfg t.addr with
  | none => .next s
  | some off =>
    if s.rstN then
      match t.dir with
      | .read => .next (hostRead off t.size s)
      | .write => hostWrite off t.size t.data s
    else .next (hostInReset t s)

/-- The ENGINE's turn (R205): it completes the command in flight. -/
def engineStep (s : State) : Host.Outcome State Fault Refusal :=
  exec s.blk.eng.instr { s with turn := .engine }

/-- A level of the pin `rst_n`: low performs the hardware reset (R261), high ends it (R262). -/
def pinStep (level : Bool) (s : State) : State :=
  if level then { s with rstN := true } else { s with rstN := false, blk := hardReset s.blk }

/-- One event of the interleaving (R85). -/
def perform (e : Event) (s : State) : Host.Outcome State Fault Refusal :=
  match e with
  | .host t => hostStep t s
  | .engine => engineStep s
  | .rstN level => .next (pinStep level s)

/-- The next event: the head of the inbox; with none pending the ENGINE has its turn (R14, assumption 1). -/
def nextEvent : List Event → Event × List Event
  | [] => (.engine, [])
  | e :: rest => (e, rest)

/-- The window address of an offset: `BASE + off` (R190). -/
def addrOf (cfg : Config) (off : Off) : Nat := cfg.base + off.toNat

/-- `MemRead(off, 4)` as an event: `rd OFF` (R10, R112). -/
def rd (cfg : Config) (off : Off) : Event := .host ⟨.read, addrOf cfg off, 4, 0⟩

/-- `MemWrite(off, 4, v)` as an event: `wr OFF, v` (R10, R112). -/
def wr (cfg : Config) (off : Off) (v : Word) : Event := .host ⟨.write, addrOf cfg off, 4, v⟩

end Sys2Proof.Machine
end

