-- ==== Sys2Proof/Machine/Step.lean ====
section
/-! DEFINITION. One step of the machine, and how the host's tools place a command before it. -/

namespace Sys2Proof.Machine

/-- One step: the next event of the interleaving is performed, whole (R85, R209). -/
def step (s : State) : Host.Outcome State Fault Refusal :=
  perform (nextEvent s.inbox).1 { s with inbox := (nextEvent s.inbox).2, rdata := none }

/-- The command word `w` is the next write to CMD to arrive at the port, with `rst_n` deasserted; nothing else
changes (assumption 3). -/
def State.withFetchWord (s : State) (_nbits w : Nat) : State :=
  { s with rstN := true, inbox := wr s.cfg 0x018#12 (BitVec.ofNat 32 w) :: s.inbox }

end Sys2Proof.Machine
end

