-- ==== Sys2Proof/Machine/Asm.lean ====
section
/-! DEFINITION. The assembler syntax of a command (R110, R111), over a line already cut into its mnemonic and its
operands (assumption 19). -/

namespace Sys2Proof.Machine

/-- Mnemonics and register names are case-insensitive (R110, R111). -/
def upper (c : Char) : Char := if 'a' ≤ c ∧ c ≤ 'z' then Char.ofNat (c.toNat - 32) else c

/-- The mnemonics of R103, in capitals. -/
def asmOp : List Char → Option Op
  | ['E', 'N', 'C'] => some .enc
  | ['D', 'E', 'C'] => some .dec
  | ['M', 'U', 'L'] => some .mul
  | ['S', 'Q', 'R'] => some .sqr
  | ['A', 'D', 'D'] => some .add
  | ['S', 'U', 'B'] => some .sub
  | ['N', 'E', 'G'] => some .neg
  | ['H', 'L', 'V'] => some .hlv
  | ['D', 'B', 'L'] => some .dbl
  | ['T', 'P', 'L'] => some .tpl
  | _ => none

/-- The mnemonic of an operation, in capitals (R103). -/
def Op.mnemonic : Op → List Char
  | .enc => ['E', 'N', 'C']
  | .dec => ['D', 'E', 'C']
  | .mul => ['M', 'U', 'L']
  | .sqr => ['S', 'Q', 'R']
  | .add => ['A', 'D', 'D']
  | .sub => ['S', 'U', 'B']
  | .neg => ['N', 'E', 'G']
  | .hlv => ['H', 'L', 'V']
  | .dbl => ['D', 'B', 'L']
  | .tpl => ['T', 'P', 'L']

/-- A register operand, F0-F7 (R111). -/
def asmReg : List Char → Option FReg
  | [f, d] =>
    if h : upper f = 'F' ∧ 48 ≤ d.toNat ∧ d.toNat < 56 then some ⟨d.toNat - 48, by omega⟩ else none
  | _ => none

/-- The name of a field register (R111). -/
def regName (r : FReg) : List Char := ['F', Char.ofNat (48 + r.val)]

/-- ReadsRs2: MUL, ADD and SUB (R202). -/
def Op.readsRs2 : Op → Bool
  | .mul | .add | .sub => true
  | .enc | .dec | .sqr | .neg | .hlv | .dbl | .tpl => false

/-- `MNEMONIC rd, rs1, rs2` for MUL, ADD, SUB and `MNEMONIC rd, rs1` for the others, to its command word
(R110). -/
def assemble (mnemonic : List Char) (operands : List (List Char)) : Option Word :=
  match asmOp (mnemonic.map upper), operands.map asmReg with
  | some o, [some d, some a, some b] => if o.readsRs2 then some (encode (o.instr d a b)) else none
  | some o, [some d, some a] => if o.readsRs2 then none else some (encode (o.instr d a 0))
  | _, _ => none

/-- The operands a command is written with, in order (R110). -/
def asmOperands (i : Instr) : List (List Char) :=
  match i.rs2 with
  | some b => [regName i.rd, regName i.rs1, regName b]
  | none => [regName i.rd, regName i.rs1]

end Sys2Proof.Machine
end

