-- ==== Sys2Proof/Machine/Pseudo.lean ====
section
/-! DEFINITION. Runs over a list of events, and the host-side pseudo-instructions (R110, R113-R117): the loads and
stores as lists of events, `WAIT` as the host's loop, and the commands followed by one. -/

namespace Sys2Proof.Machine

/-- The machine with the events `es` to come. -/
def withEvents (es : List Event) (s : State) : State := { s with inbox := es }

/-- The events `es` performed one after the other, from `s`. -/
def runEvents (es : List Event) (s : State) : Host.Outcome State Fault Refusal :=
  Host.Core.run Sys2Proof.core es.length (withEvents es s)

/-- The word numbers in increasing address order (R78). -/
def wordOrder : List WordIdx := [0, 1, 2, 3, 4, 5, 6, 7]

/-- A written command is one write of its word to CMD, at offset 0x018 (R110). -/
def issue (cfg : Config) (i : Instr) : Event := wr cfg 0x018#12 (encode i)

/-- `LDF Fi, v`: eight writes, word 0 first (R113). -/
def ldf (cfg : Config) (i : FReg) (v : Elem) : List Event :=
  wordOrder.map fun k => wr cfg (fieldOff i k) (word v k)

/-- `STF Fi`: eight reads, word 0 first (R114). -/
def stf (cfg : Config) (i : FReg) : List Event :=
  wordOrder.map fun k => rd cfg (fieldOff i k)

/-- `v = sum of wk x 2^(32k)`, from the words in order (R9, R114). -/
def joinWords : List Word → Nat
  | [] => 0
  | w :: rest => w.toNat + 2 ^ 32 * joinWords rest

/-- The STATUS read of `WAIT` (R115). -/
def poll (cfg : Config) : Event := rd cfg 0x014#12

/-- `WAIT` leaves its loop when the STATUS word it read has bit 0 (BUSY) clear (R115). -/
def waitExits (s : State) : Bool :=
  match s.rdata with
  | some w => !w.getLsbD 0
  | none => false

/-- Where a host stands that runs a `WAIT`: past it, the STATUS word `s` of R115 in `rdata`, or in its loop still. -/
inductive Waiting where
  | done (t : State)
  | looping (t : State)
  deriving DecidableEq, Repr

/-- `WAIT -> s`, the loop `wait: rd STATUS -> s; if s[0] == 1 goto wait` (R115). Each entry of `turns` is one turn of
the loop: what else is performed at the block before that turn's read. A loop that has taken all of them and has
not ended goes on (assumption 20). -/
def waitLoop : List (List Event) → State → Host.Outcome Waiting Fault Refusal
  | [], s => .next (.looping s)
  | g :: turns, s =>
    match runEvents (g ++ [poll s.cfg]) s with
    | .next t => if waitExits t then .next (.done t) else waitLoop turns t
    | .fault f => .fault f
    | .refused r => .refused r

/-- `OP rd, rs1[, rs2] !`: the command, then `WAIT` (R116). -/
def sync (i : Instr) (turns : List (List Event)) (s : State) : Host.Outcome Waiting Fault Refusal :=
  match runEvents [issue s.cfg i] s with
  | .next t => waitLoop turns t
  | .fault f => .fault f
  | .refused r => .refused r

/-- Commands one after the other, each with its `WAIT`: the next is issued only once the one before has left its
loop (R117). -/
def syncAll : List (Instr × List (List Event)) → State → Host.Outcome Waiting Fault Refusal
  | [], s => .next (.done s)
  | (i, turns) :: rest, s =>
    match sync i turns s with
    | .next (.done t) => syncAll rest t
    | .next (.looping t) => .next (.looping t)
    | .fault f => .fault f
    | .refused r => .refused r

/-- `CLR Fd, Fa`: one command, without `WAIT` (R117). -/
def clr (cfg : Config) (d a : FReg) : List Event := [issue cfg (.sub d a a)]

/-- `MOV Fd, Fa` (R117), with the turns of its two loops. -/
def mov (d a : FReg) (w1 w2 : List (List Event)) : State → Host.Outcome Waiting Fault Refusal :=
  syncAll [(.neg d a, w1), (.neg d d, w2)]

/-- `DBL2 Fd, Fa` (R117). -/
def dbl2 (d a : FReg) (w : List (List Event)) : State → Host.Outcome Waiting Fault Refusal :=
  syncAll [(.add d a a, w)]

/-- `TPL2 Fd, Fa, Ft` (R117). -/
def tpl2 (d a t : FReg) (w1 w2 : List (List Event)) : State → Host.Outcome Waiting Fault Refusal :=
  syncAll [(.add t a a, w1), (.add d t a, w2)]

/-- `MMULN Fd, Fa, Fb` (R117). -/
def mmuln (d a b : FReg) (w1 w2 : List (List Event)) : State → Host.Outcome Waiting Fault Refusal :=
  syncAll [(.mul d a b, w1), (.enc d d, w2)]

end Sys2Proof.Machine
end

