-- ==== Sys2Proof/Machine/Result.lean ====
section
/-! DEFINITION. The result function of R207 as one table over the commands' own functions, and the informative
word-serial reduction of R137. -/

namespace Sys2Proof.Machine

/-- Result(o, a, b) (R207). For SQR the latched b is a (R203), and R135 multiplies a by itself. -/
def result (o : Op) (a b : Elem) : Elem :=
  match o with
  | .enc => montMul a b
  | .dec => montMul a b
  | .mul => montMul a b
  | .sqr => montMul a a
  | .add => modAdd a b
  | .sub => modSub a b
  | .neg => modNeg a
  | .hlv => modHlv a
  | .dbl => modDbl a
  | .tpl => modTpl a

/-- One round of the word-serial reduction: word i of T, times n0' = 1, times p, is added at word i (R137). -/
def redcRound (w : Nat) (t i : Nat) : Nat :=
  t + (t / 2 ^ (w * i) % 2 ^ w) * Rom.p * 2 ^ (w * i)

/-- The word-serial Montgomery reduction with n words of w bits (R137). T is an unbounded integer here, since it
reaches 513 bits. -/
def redc (w n : Nat) (a b : Elem) : Nat :=
  let t := ((List.range n).foldl (redcRound w) (a.toNat * b.toNat)) / 2 ^ 256
  if Rom.p ≤ t then t - Rom.p else t

end Sys2Proof.Machine
end

