-- ==== Sys2Proof/Safety.lean ====
section
/-! DEFINITION. The terms claims use: the invariant of the block, a host that respects the hazards, what stays
visible of a state, the two outcomes of a command. -/

namespace Sys2Proof.Machine

/-- The invariant: what holds in every state a run from reset reaches. -/
structure Inv (s : State) : Prop where
  /-- A command in flight has operands in [0, p) (R223). -/
  operands : s.blk.busy = true → s.blk.eng.a.toNat < Rom.p ∧ s.blk.eng.b.toNat < Rom.p
  /-- A command in flight has the constant its opcode uses in ENG.B (R45, R203). -/
  constants : s.blk.busy = true →
    (s.blk.eng.opc = .enc → s.blk.eng.b = Rom.R2) ∧ (s.blk.eng.opc = .dec → s.blk.eng.b = Rom.ONE) ∧
      (s.blk.eng.opc = .sqr → s.blk.eng.b = s.blk.eng.a)
  /-- A command in flight is one the block has (R104, R106). -/
  present : s.blk.busy = true → s.blk.eng.instr.wf s.cfg = true
  /-- BUSY and DONE are never both 1 (R40). -/
  notBoth : ¬(s.blk.busy = true ∧ s.blk.done = true)
  /-- When ERR = 0 the whole error record is 0 (R41, R43). -/
  noError : s.blk.err = false →
    s.blk.eovf = false ∧ s.blk.ecode = .none ∧ s.blk.rangeOps = 0 ∧ s.blk.errinfo = 0
  /-- When ERR = 1 a cause is recorded, and RANGE_OPS is nonzero exactly for RANGE (R229). -/
  anError : s.blk.err = true → s.blk.ecode ≠ .none ∧ (s.blk.rangeOps ≠ 0 ↔ s.blk.ecode = .range)
  /-- For codes 4 and 5 bits [31:17] of ERRINFO are 0 (R43). -/
  accessRecord : s.blk.ecode = .busyWrite ∨ s.blk.ecode = .badAccess → s.blk.errinfo >>> 17 = 0
  /-- While `rst_n` is asserted the state stays at the reset values (R262). -/
  inReset : s.rstN = false → s.blk = Block.reset

/-- A write that is a soft reset: a well-formed CTRL write with bit 1 = 1 (R260). -/
def softResets (cfg : Config) (t : Txn) : Bool :=
  match offsetOf cfg t.addr with
  | some off => t.dir == .write && wellFormed off t.size && locate off == .ctrl && t.data.getLsbD 1
  | none => false

/-- An event that resets the block: the pin going low, or a soft reset (R260). -/
def resets (cfg : Config) : Event → Bool
  | .host t => softResets cfg t
  | .engine => false
  | .rstN level => !level

/-- An event that resets the block in state `s`: while `rst_n` is asserted no CTRL write does (R262). -/
def resetsNow (s : State) : Event → Bool
  | .host t => s.rstN && softResets s.cfg t
  | .engine => false
  | .rstN level => !level

/-- The word of a well-formed host write to location `l` that is performed in state `s`; none for any other
event (R192, R262). -/
def writesTo (l : Loc) (s : State) : Event → Option Word
  | .host t =>
    match offsetOf s.cfg t.addr with
    | some off =>
      if s.rstN && t.dir == .write && wellFormed off t.size && locate off == l then some t.data else none
    | none => none
  | .engine => none
  | .rstN _ => none

/-- The operands a command reads are all in [0, p) (R204). -/
def operandsLegal (b : Block) (i : Instr) : Bool := !outOfRange (b.readF i.rs1) && !badRs2 b i

/-- The event is the acceptance of a legal command (R202). -/
def acceptsCommand (s : State) (e : Event) : Bool :=
  match writesTo .cmd s e with
  | some c =>
    !s.blk.busy &&
      match decode s.cfg c with
      | some i => operandsLegal s.blk i
      | none => false
  | none => false

/-- The event is the ENGINE's turn and its step is enabled (R205). -/
def completesCommand (s : State) (e : Event) : Bool := e == .engine && engineEnabled s

/-- The event clears the error record: STATUS bit 2 written 1, or a reset (R231). -/
def clearsError (s : State) (e : Event) : Bool :=
  resetsNow s e ||
    match writesTo .status s e with
    | some v => v.getLsbD 2
    | none => false

/-- The event clears DONE: a CMD write made while BUSY = 0, STATUS bit 1 written 1, or a reset (R40). -/
def clearsDone (s : State) (e : Event) : Bool :=
  resetsNow s e || ((writesTo .cmd s e).isSome && !s.blk.busy) ||
    match writesTo .status s e with
    | some v => v.getLsbD 1
    | none => false

/-- An event that respects the hazards: an access is well formed, CMD is written only while BUSY = 0 with a
legal command on legal operands, a field register only while BUSY = 0 (R75, R233, R268, R269, R271). -/
def respectsHazards (s : State) : Event → Bool
  | .host t =>
    match offsetOf s.cfg t.addr with
    | none => true
    | some off =>
      !s.rstN || (wellFormed off t.size &&
        match t.dir with
        | .read => true
        | .write =>
          match locate off with
          | .cmd =>
            !s.blk.busy &&
              match decode s.cfg t.data with
              | some i => operandsLegal s.blk i
              | none => false
          | .field _ _ => !s.blk.busy
          | _ => true)
  | .engine => true
  | .rstN _ => true

/-- The block with what no transaction can read taken out: ENG.T always, all of ENG while BUSY = 0 (R46). -/
def Block.visible (b : Block) : Block :=
  { b with eng := if b.busy then { b.eng with t := 0 } else Block.reset.eng }

/-- Two machines no transaction can tell apart now: they may differ in hidden engine state and in the model's own
bookkeeping (R46, R47). -/
def SameVisible (s t : State) : Prop :=
  s.cfg = t.cfg ∧ s.blk.visible = t.blk.visible ∧ s.rstN = t.rstN ∧ s.rdata = t.rdata ∧ s.inbox = t.inbox

/-- The HOST may issue a command: its step, no reset, BUSY = 0. -/
def HostIdle (s : State) : Prop := s.turn = .host ∧ s.rstN = true ∧ s.blk.busy = false

/-- `s1` is `s` after command `i` was accepted: BUSY = 1, DONE = 0, ENG latched with the operands `a` and `b`,
nothing else changed. ENG.T and the free-value counter are left open (R202). -/
def Accepted (i : Instr) (a b : Elem) (s s1 : State) : Prop :=
  s1 = { s with
    blk := { s.blk with
      busy := true
      done := false
      eng := ⟨opOf i, i.rd, a, b, s1.blk.eng.t⟩ }
    freeCount := s1.freeCount }

/-- The turns of a `WAIT` loop of a host that is alone at the port: only the ENGINE steps between its STATUS reads, in
at least one of the turns. How many reads come before it is left open (R14, R276). -/
def EngineTurns (turns : List (List Event)) : Prop :=
  (∀ g ∈ turns, ∀ e ∈ g, e = .engine) ∧ ∃ g ∈ turns, g ≠ []

/-- The ENGINE's turn on the same state (R12). -/
def engineTurn (s : State) : State := { s with turn := .engine }

/-- `s2` is `s` after the ENGINE wrote `v` to `F[rd]`: BUSY = 0, DONE = 1; no other field register, no error
field, nothing else changed (R205). ENG.T and the free-value counter are left open. That the latched fields of ENG
stay as they were is the model's choice (assumption 5, DEDUCED). -/
def Completed (rd : FReg) (v : Elem) (s s2 : State) : Prop :=
  s2 = { s with
    blk := { s.blk.writeF rd v with
      busy := false
      done := true
      eng := { s.blk.eng with t := s2.blk.eng.t } }
    freeCount := s2.freeCount }

end Sys2Proof.Machine
end

