-- ==== Sys2Proof/Certificates/Slice0/Obligations.lean ====
section
/-! DEFINITION. The statements about the model. -/

open Sys2Proof Sys2Proof.Machine

/-! ## Encoding -/

/-- R121: the decoder's nine example words, in both configurations. -/
def Obligations.SpecCommandWordsDecode : Prop :=
  ∀ cfg : Config,
    decode cfg 0x00001022#32 = some (.mul 2 0 1) ∧
    decode cfg 0x00000000#32 = some (.enc 0 0) ∧
    decode cfg 0x00007701#32 = some (.dec 0 7) ∧
    decode cfg 0x00000004#32 = none ∧
    decode cfg 0x0000000B#32 = none ∧
    decode cfg 0x00000009#32 = (if cfg.extOps then some (.dbl 0 0) else none) ∧
    decode cfg 0x00000082#32 = none ∧
    decode cfg 0x00008002#32 = none ∧
    decode cfg 0xFFFFFFFF#32 = none

/-- R101, R110: every command of every configuration, with every register number in every operand, is the
decoding of its encoding. -/
def Obligations.DecodeOfEncode : Prop :=
  ∀ (cfg : Config) (i : Instr), i.wf cfg = true → decode cfg (encode i) = some i

/-- R101, R107, R120: a word that decodes to a command is that command's encoding on every bit but an ignored
rs2 field, and the command exists in the configuration. -/
def Obligations.DecodedWordEncodesBack : Prop :=
  ∀ (cfg : Config) (c : Word) (i : Instr), decode cfg c = some i →
    i.wf cfg = true ∧ c &&& i.usedBits = encode i

/-- R104, R105: which opcodes are legal, which bits are reserved, and that the two make a word Illegal or not. The
last clause, that `exec` of a command the configuration has not records ILLEGAL_CMD with CMDRB as its info, is the
model's choice (assumptions 15 and 16, DEDUCED): it is about a call no step makes, since the decoder refuses the
word. -/
def Obligations.IllegalWordsAreExactlyTheRest : Prop :=
  (∀ (cfg : Config) (o : BitVec 4), (caps cfg).getLsbD o.toNat = true ↔
    (o.toNat ∈ [0, 1, 2, 3, 5, 6, 7] ∨ (o.toNat ∈ [8, 9, 10] ∧ cfg.extOps = true))) ∧
  (∀ c : Word, c &&& 0xFFFF8880#32 ≠ 0 ↔
    ∃ k, (k = 7 ∨ k = 11 ∨ (15 ≤ k ∧ k ≤ 31)) ∧ c.getLsbD k = true) ∧
  (∀ (cfg : Config) (c : Word), decode cfg c = none ↔
    (c &&& 0xFFFF8880#32 ≠ 0 ∨ (caps cfg).getLsbD (c.extractLsb' 0 4).toNat = false)) ∧
  (∀ (i : Instr) (s : State), HostIdle s → i.wf s.cfg = false →
    exec i s = .next { s with blk := raiseError .illegalCmd s.blk.cmdrb 0 { s.blk with done := false } })

/-- R107: the rs2 field of a one-operand command is ignored by the decoder, the assembler writes 0 there, and
the command depends on no register but rs1: another register `r`, the one an ignored field names among them,
may hold anything, and the acceptance is the same but for that register's own contents. -/
def Obligations.IgnoredFieldHasNoEffect : Prop :=
  (∀ (cfg : Config) (c d : Word) (i : Instr), c &&& 0xFFFF8FFF#32 = d &&& 0xFFFF8FFF#32 →
    decode cfg c = some i → i.rs2 = none → decode cfg d = some i) ∧
  (∀ i : Instr, i.rs2 = none → encode i &&& 0x00007000#32 = 0) ∧
  (∀ (i : Instr) (s s1 : State) (r : FReg) (v : Elem), s.turn = .host → i.rs2 = none → r ≠ i.rs1 →
    exec i s = .next s1 →
    exec i { s with blk := s.blk.writeF r v } = .next { s1 with blk := s1.blk.writeF r v })

/-- R110, R111: the assembler gives a written command its encoding, whatever the case of its letters. -/
def Obligations.AssemblerEncodesWrittenCommands : Prop :=
  (∀ i : Instr, assemble (opOf i).mnemonic (asmOperands i) = some (encode i)) ∧
  (∀ i : Instr, assemble ((opOf i).mnemonic.map Char.toLower)
    ((asmOperands i).map (List.map Char.toLower)) = some (encode i))

/-! ## A step runs the decoded command -/

/-- R202: when the next event is a write of a word that decodes to `i` to CMD, the step stores the word in CMDRB
and is `exec i` in a HOST step. -/
def Obligations.CmdWriteStepRunsDecodedCommand : Prop :=
  ∀ (s : State) (c : Word) (i : Instr) (rest : List Event), s.rstN = true → decode s.cfg c = some i →
    step (withEvents (wr s.cfg 0x018#12 c :: rest) s) =
      exec i { s with inbox := rest, rdata := none, turn := .host, blk := { s.blk with cmdrb := c } }

/-- R205: the ENGINE's turn is `exec` of the command ENG holds, in an ENGINE step; with no event pending the
ENGINE has its turn (R14, assumption 1). -/
def Obligations.EngineTurnRunsCommandInFlight : Prop :=
  ∀ (s : State) (i : Instr) (rest : List Event), opOf i = s.blk.eng.opc → i.rd = s.blk.eng.rd →
    step (withEvents (.engine :: rest) s) =
      exec i { s with inbox := rest, rdata := none, turn := .engine } ∧
    step (withEvents [] s) = exec i { s with inbox := [], rdata := none, turn := .engine }

/-- R209, R241: no command and no step faults or is refused, in any state. -/
def Obligations.EveryStepAnswersNext : Prop :=
  (∀ (i : Instr) (s : State), ∃ t, exec i s = .next t) ∧
  (∀ s : State, ∃ t, step s = .next t ∧ t.cfg = s.cfg)

/-! ## The ten commands: each is accepted, then completed; what its two steps change, and nothing else -/

/-- R132: ENC writes `a * 2^256 mod p`. What `Completed` says of ENG's four latched fields, that they stay after
completion, is the model's choice (assumption 5, DEDUCED): R46 calls them implementation-defined while BUSY = 0.
-/
def Obligations.EncWritesMontgomeryForm : Prop :=
  ∀ (rd rs1 : FReg) (s : State), HostIdle s → (s.blk.readF rs1).toNat < Rom.p →
    ∃ s1 s2 v, exec (.enc rd rs1) s = .next s1 ∧
      Accepted (.enc rd rs1) (s.blk.readF rs1) Rom.R2 s s1 ∧
      exec (.enc rd rs1) (engineTurn s1) = .next s2 ∧ Completed rd v (engineTurn s1) s2 ∧
      v.toNat = (s.blk.readF rs1).toNat * 2 ^ 256 % Rom.p

/-- R133: DEC writes the `v` in [0, p) whose Montgomery form is the operand. What `Completed` says of ENG's four
latched fields, that they stay after completion, is the model's choice (assumption 5, DEDUCED): R46 calls them
implementation-defined while BUSY = 0. -/
def Obligations.DecWritesNormalForm : Prop :=
  ∀ (rd rs1 : FReg) (s : State), HostIdle s → (s.blk.readF rs1).toNat < Rom.p →
    ∃ s1 s2 v, exec (.dec rd rs1) s = .next s1 ∧
      Accepted (.dec rd rs1) (s.blk.readF rs1) 1 s s1 ∧
      exec (.dec rd rs1) (engineTurn s1) = .next s2 ∧ Completed rd v (engineTurn s1) s2 ∧
      v.toNat < Rom.p ∧ v.toNat * 2 ^ 256 % Rom.p = (s.blk.readF rs1).toNat

/-- R134: MUL writes the Montgomery product of its operands. What `Completed` says of ENG's four latched fields,
that they stay after completion, is the model's choice (assumption 5, DEDUCED): R46 calls them
implementation-defined while BUSY = 0. -/
def Obligations.MulWritesMontgomeryProduct : Prop :=
  ∀ (rd rs1 rs2 : FReg) (s : State), HostIdle s →
    (s.blk.readF rs1).toNat < Rom.p → (s.blk.readF rs2).toNat < Rom.p →
    ∃ s1 s2 v, exec (.mul rd rs1 rs2) s = .next s1 ∧
      Accepted (.mul rd rs1 rs2) (s.blk.readF rs1) (s.blk.readF rs2) s s1 ∧
      exec (.mul rd rs1 rs2) (engineTurn s1) = .next s2 ∧ Completed rd v (engineTurn s1) s2 ∧
      v.toNat < Rom.p ∧
      v.toNat * 2 ^ 256 % Rom.p = (s.blk.readF rs1).toNat * (s.blk.readF rs2).toNat % Rom.p

/-- R135: SQR writes the Montgomery product of its operand with itself. What `Completed` says of ENG's four
latched fields, that they stay after completion, is the model's choice (assumption 5, DEDUCED): R46 calls them
implementation-defined while BUSY = 0. -/
def Obligations.SqrWritesMontgomerySquare : Prop :=
  ∀ (rd rs1 : FReg) (s : State), HostIdle s → (s.blk.readF rs1).toNat < Rom.p →
    ∃ s1 s2 v, exec (.sqr rd rs1) s = .next s1 ∧
      Accepted (.sqr rd rs1) (s.blk.readF rs1) (s.blk.readF rs1) s s1 ∧
      exec (.sqr rd rs1) (engineTurn s1) = .next s2 ∧ Completed rd v (engineTurn s1) s2 ∧
      v.toNat < Rom.p ∧
      v.toNat * 2 ^ 256 % Rom.p = (s.blk.readF rs1).toNat * (s.blk.readF rs1).toNat % Rom.p

/-- R163: ADD writes `(a + b) mod p`, exactly, also where the sum exceeds 2^256 - 1 (R162). What `Completed`
says of ENG's four latched fields, that they stay after completion, is the model's choice (assumption 5,
DEDUCED): R46 calls them implementation-defined while BUSY = 0. -/
def Obligations.AddWritesSumModP : Prop :=
  ∀ (rd rs1 rs2 : FReg) (s : State), HostIdle s →
    (s.blk.readF rs1).toNat < Rom.p → (s.blk.readF rs2).toNat < Rom.p →
    ∃ s1 s2 v, exec (.add rd rs1 rs2) s = .next s1 ∧
      Accepted (.add rd rs1 rs2) (s.blk.readF rs1) (s.blk.readF rs2) s s1 ∧
      exec (.add rd rs1 rs2) (engineTurn s1) = .next s2 ∧ Completed rd v (engineTurn s1) s2 ∧
      v.toNat = ((s.blk.readF rs1).toNat + (s.blk.readF rs2).toNat) % Rom.p

/-- R164: SUB writes `(a - b) mod p`, rs1 the minuend; `%` on integers is the residue in [0, p). What
`Completed` says of ENG's four latched fields, that they stay after completion, is the model's choice
(assumption 5, DEDUCED): R46 calls them implementation-defined while BUSY = 0. -/
def Obligations.SubWritesDifferenceModP : Prop :=
  ∀ (rd rs1 rs2 : FReg) (s : State), HostIdle s →
    (s.blk.readF rs1).toNat < Rom.p → (s.blk.readF rs2).toNat < Rom.p →
    ∃ s1 s2 v, exec (.sub rd rs1 rs2) s = .next s1 ∧
      Accepted (.sub rd rs1 rs2) (s.blk.readF rs1) (s.blk.readF rs2) s s1 ∧
      exec (.sub rd rs1 rs2) (engineTurn s1) = .next s2 ∧ Completed rd v (engineTurn s1) s2 ∧
      (v.toNat : Int) = ((s.blk.readF rs1).toNat - (s.blk.readF rs2).toNat : Int) % (Rom.p : Int)

/-- R165: NEG writes `(-a) mod p`; in particular 0 for 0. What `Completed` says of ENG's four latched fields,
that they stay after completion, is the model's choice (assumption 5, DEDUCED): R46 calls them
implementation-defined while BUSY = 0. -/
def Obligations.NegWritesNegationModP : Prop :=
  ∀ (rd rs1 : FReg) (s : State), HostIdle s → (s.blk.readF rs1).toNat < Rom.p →
    ∃ s1 s2 v, exec (.neg rd rs1) s = .next s1 ∧
      Accepted (.neg rd rs1) (s.blk.readF rs1) 0 s s1 ∧
      exec (.neg rd rs1) (engineTurn s1) = .next s2 ∧ Completed rd v (engineTurn s1) s2 ∧
      (v.toNat : Int) = (-(s.blk.readF rs1).toNat : Int) % (Rom.p : Int)

/-- R166: where EXT_OPS is true HLV writes the `v` in [0, p) with `2 v = a mod p`. The meaning of halving is the
spec's own, from general knowledge (R166, 93_implementation_defined.md G3). What `Completed` says of ENG's four
latched fields, that they stay after completion, is the model's choice (assumption 5, DEDUCED): R46 calls them
implementation-defined while BUSY = 0. -/
def Obligations.HlvWritesHalfModP : Prop :=
  ∀ (rd rs1 : FReg) (s : State), HostIdle s → s.cfg.extOps = true →
    (s.blk.readF rs1).toNat < Rom.p →
    ∃ s1 s2 v, exec (.hlv rd rs1) s = .next s1 ∧
      Accepted (.hlv rd rs1) (s.blk.readF rs1) 0 s s1 ∧
      exec (.hlv rd rs1) (engineTurn s1) = .next s2 ∧ Completed rd v (engineTurn s1) s2 ∧
      v.toNat < Rom.p ∧ 2 * v.toNat % Rom.p = (s.blk.readF rs1).toNat

/-- R167: where EXT_OPS is true DBL writes `2 a mod p`. What `Completed` says of ENG's four latched fields, that
they stay after completion, is the model's choice (assumption 5, DEDUCED): R46 calls them implementation-defined
while BUSY = 0. -/
def Obligations.DblWritesDoubleModP : Prop :=
  ∀ (rd rs1 : FReg) (s : State), HostIdle s → s.cfg.extOps = true →
    (s.blk.readF rs1).toNat < Rom.p →
    ∃ s1 s2 v, exec (.dbl rd rs1) s = .next s1 ∧
      Accepted (.dbl rd rs1) (s.blk.readF rs1) 0 s s1 ∧
      exec (.dbl rd rs1) (engineTurn s1) = .next s2 ∧ Completed rd v (engineTurn s1) s2 ∧
      v.toNat = 2 * (s.blk.readF rs1).toNat % Rom.p

/-- R168: where EXT_OPS is true TPL writes `3 a mod p`. What `Completed` says of ENG's four latched fields, that
they stay after completion, is the model's choice (assumption 5, DEDUCED): R46 calls them implementation-defined
while BUSY = 0. -/
def Obligations.TplWritesTripleModP : Prop :=
  ∀ (rd rs1 : FReg) (s : State), HostIdle s → s.cfg.extOps = true →
    (s.blk.readF rs1).toNat < Rom.p →
    ∃ s1 s2 v, exec (.tpl rd rs1) s = .next s1 ∧
      Accepted (.tpl rd rs1) (s.blk.readF rs1) 0 s s1 ∧
      exec (.tpl rd rs1) (engineTurn s1) = .next s2 ∧ Completed rd v (engineTurn s1) s2 ∧
      v.toNat = 3 * (s.blk.readF rs1).toNat % Rom.p

/-- The frame of every command, read through the bus (R49, R205): from the call of `exec` that accepts it to its
completion no offset of the window reads differently, but STATUS and the words of F[rd]. STATUS reads with
BUSY = 0 and DONE = 1 and its other bits as before. That the command word stands in CMDRB before `exec` runs, so
that CMD too reads the same, is the model's choice (assumption 16, DEDUCED): the CMD write itself stores it
(R202). -/
def Obligations.CommandFrameThroughTheWindow : Prop :=
  ∀ (i : Instr) (s : State), HostIdle s → i.wf s.cfg = true → operandsLegal s.blk i = true →
    ∃ s1 s2, exec i s = .next s1 ∧ exec i (engineTurn s1) = .next s2 ∧
      (∀ off : Off, off ≠ 0x014#12 → (∀ k, locate off ≠ .field i.rd k) → readAt s2 off = readAt s off) ∧
      readAt s2 0x014#12 = (readAt s 0x014#12 &&& 0xFFFFFFFC#32) ||| 2 ∧
      irq s2 = s.blk.ie

/-! ## Acceptance -/

/-- R204: the range check of acceptance: what it compares, what it does not, its corner cases. A refused command
leaves everything but DONE and the error record as it was. -/
def Obligations.RangeCheckAtAcceptance : Prop :=
  (∀ (i : Instr) (s : State), HostIdle s → i.wf s.cfg = true →
    (Rom.p ≤ (s.blk.readF i.rs1).toNat ∨ ∃ r, i.rs2 = some r ∧ Rom.p ≤ (s.blk.readF r).toNat) →
    ∃ bits : BitVec 2, exec i s = .next { s with
        blk := raiseError .range s.blk.cmdrb bits { s.blk with done := false } } ∧
      (bits.getLsbD 0 = true ↔ Rom.p ≤ (s.blk.readF i.rs1).toNat) ∧
      (bits.getLsbD 1 = true ↔ ∃ r, i.rs2 = some r ∧ Rom.p ≤ (s.blk.readF r).toNat)) ∧
  (∀ (i : Instr) (s : State), HostIdle s → i.wf s.cfg = true →
    (s.blk.readF i.rs1).toNat < Rom.p → (∀ r, i.rs2 = some r → (s.blk.readF r).toNat < Rom.p) →
    ∃ s1, exec i s = .next s1 ∧ s1.blk.busy = true ∧ s1.blk.err = s.blk.err) ∧
  (∀ i : Instr, i.rs2.isSome = true ↔ opOf i = .mul ∨ opOf i = .add ∨ opOf i = .sub) ∧
  outOfRange 0xFFFFFFFEFFFFFFFFFFFFFFFFFFFFFFFFFFFFFFFF00000000FFFFFFFFFFFFFFFF#256 = true ∧
  outOfRange 0xFFFFFFFEFFFFFFFFFFFFFFFFFFFFFFFFFFFFFFFF00000000FFFFFFFFFFFFFFFE#256 = false ∧
  outOfRange (BitVec.allOnes 256) = true ∧
  (∀ s : State, HostIdle s → Rom.p ≤ (s.blk.readF 3).toNat →
    exec (.mul 0 3 3) s = .next { s with
      blk := raiseError .range s.blk.cmdrb 3 { s.blk with done := false } })

/-- R225: a CMD write made while BUSY = 1, legal or not, is stored in CMDRB and otherwise only recorded as
BUSY_CMD; the running command is undisturbed. -/
def Obligations.CommandWhileBusyIsDropped : Prop :=
  ∀ (s : State) (c : Word) (rest : List Event), s.rstN = true → s.blk.busy = true →
    ∃ t, step (withEvents (wr s.cfg 0x018#12 c :: rest) s) = .next t ∧
      t.blk = raiseError .busyCmd c 0 { s.blk with cmdrb := c } ∧
      t.blk.eng = s.blk.eng ∧ t.blk.f = s.blk.f ∧ t.blk.busy = true ∧ t.blk.done = s.blk.done

/-- R234: the checks of a CMD write, in their order; only the first that applies is raised. An access of any
size at the four byte offsets of CMD is taken, so that the ill-formed ones are there. -/
def Obligations.CmdWriteChecksInOrder : Prop :=
  ∀ (s : State) (x : Txn) (off : Off) (rest : List Event), s.rstN = true → x.dir = .write →
    offsetOf s.cfg x.addr = some off → 0x018 ≤ off.toNat → off.toNat < 0x01C →
    ∃ t, step (withEvents (.host x :: rest) s) = .next t ∧
      if x.size ≠ 4 ∨ off ≠ 0x018#12 then
        t.blk = raiseError .badAccess (accessInfo off x.size .write) 0 s.blk
      else if s.blk.busy = true then
        t.blk = raiseError .busyCmd x.data 0 { s.blk with cmdrb := x.data }
      else
        match decode s.cfg x.data with
        | none => t.blk = raiseError .illegalCmd x.data 0 { s.blk with cmdrb := x.data, done := false }
        | some i =>
          if operandsLegal s.blk i = true then
            t.blk = { s.blk with cmdrb := x.data, done := false, busy := true, eng := t.blk.eng }
          else
            t.blk = raiseError .range x.data
              (rangeBits (outOfRange (s.blk.readF i.rs1)) (badRs2 s.blk i))
              { s.blk with cmdrb := x.data, done := false }

/-- R203: the operands latched at acceptance, per opcode; the result is computed from them, whichever of rd, rs1
and rs2 coincide. What `Completed` says of ENG's four latched fields, that they stay after completion, is the
model's choice (assumption 5, DEDUCED): R46 calls them implementation-defined while BUSY = 0. -/
def Obligations.OperandsLatchedPerOpcode : Prop :=
  ∀ (i : Instr) (s : State), HostIdle s → i.wf s.cfg = true → operandsLegal s.blk i = true →
    let b : Elem :=
      match i with
      | .enc _ _ => Rom.R2
      | .dec _ _ => 1
      | .mul _ _ rs2 | .add _ _ rs2 | .sub _ _ rs2 => s.blk.readF rs2
      | .sqr _ rs1 => s.blk.readF rs1
      | .neg _ _ | .hlv _ _ | .dbl _ _ | .tpl _ _ => 0
    ∃ s1 s2, exec i s = .next s1 ∧ Accepted i (s.blk.readF i.rs1) b s s1 ∧
      exec i (engineTurn s1) = .next s2 ∧
      Completed i.rd (result (opOf i) (s.blk.readF i.rs1) b) (engineTurn s1) s2

/-! ## Completion -/

/-- R205: the ENGINE step from any state, whatever host traffic came before it: enabled exactly when BUSY = 1
and `rst_n` is not asserted; it writes the result to F[ENG.RD], BUSY and DONE, and nothing else. Two parts are
the model's choice: that ENG's four latched fields stay after completion (assumption 5, DEDUCED; R46 calls them
implementation-defined while BUSY = 0), and that the ENGINE's turn does nothing where its step is not enabled
(assumption 14, DESIGN CHOICE). -/
def Obligations.EngineCompletesCommandInFlight : Prop :=
  ∀ (i : Instr) (s : State), s.turn = .engine → opOf i = s.blk.eng.opc →
    (s.blk.busy = true → s.rstN = true →
      ∃ t, exec i s = .next t ∧
        Completed s.blk.eng.rd (result s.blk.eng.opc s.blk.eng.a s.blk.eng.b) s t) ∧
    (¬(s.blk.busy = true ∧ s.rstN = true) → exec i s = .next s)

/-- R131, R207: the result function. MontMul is the unique `r` in [0, p) with `r * 2^256 = a * b (mod p)`; the
other results are exact residues. -/
def Obligations.ResultTable : Prop :=
  ∀ a b : Elem, a.toNat < Rom.p → b.toNat < Rom.p →
    (∀ r : Nat, (r < Rom.p ∧ r * 2 ^ 256 % Rom.p = a.toNat * b.toNat % Rom.p) ↔ r = (montMul a b).toNat) ∧
    result .enc a Rom.R2 = montMul a Rom.R2 ∧
    result .dec a 1 = montMul a 1 ∧
    result .mul a b = montMul a b ∧
    result .sqr a a = montMul a a ∧
    (result .add a b).toNat = (a.toNat + b.toNat) % Rom.p ∧
    ((result .sub a b).toNat : Int) = (a.toNat - b.toNat : Int) % (Rom.p : Int) ∧
    ((result .neg a b).toNat : Int) = (-a.toNat : Int) % (Rom.p : Int) ∧
    (∀ h : Nat, (h < Rom.p ∧ 2 * h % Rom.p = a.toNat) ↔ h = (result .hlv a b).toNat) ∧
    (result .dbl a b).toNat = 2 * a.toNat % Rom.p ∧
    (result .tpl a b).toNat = 3 * a.toNat % Rom.p

/-! ## Errors -/

/-- R224: the first error is recorded and later ones set only EOVF; recording changes no field register, no CTRL
bit, neither BUSY nor DONE; and while ERR = 1 every step that does not clear the record keeps it. -/
def Obligations.FirstErrorWins : Prop :=
  (∀ (code : ErrCode) (info : Word) (ops : BitVec 2) (b : Block),
    (b.err = false → raiseError code info ops b =
      { b with err := true, ecode := code, rangeOps := ops, errinfo := info }) ∧
    (b.err = true → raiseError code info ops b = { b with eovf := true })) ∧
  (∀ s t : State, step s = .next t → s.blk.err = true → t.blk.err = true →
    t.blk.ecode = s.blk.ecode ∧ t.blk.rangeOps = s.blk.rangeOps ∧ t.blk.errinfo = s.blk.errinfo ∧
      (s.blk.eovf = true → t.blk.eovf = true))

/-- R231: a recorded error is cleared exactly by a STATUS write with bit 2 = 1 or a reset, and then the whole
record is 0. -/
def Obligations.ErrorRecordClearing : Prop :=
  ∀ s t : State, step s = .next t → s.blk.err = true →
    (t.blk.err = false ↔ clearsError s (nextEvent s.inbox).1 = true) ∧
    (clearsError s (nextEvent s.inbox).1 = true →
      t.blk.eovf = false ∧ t.blk.ecode = .none ∧ t.blk.rangeOps = 0 ∧ t.blk.errinfo = 0)

/-- R201: a word write of a field register. While BUSY = 0 it writes that word and nothing else; while BUSY = 1 it
is BUSY_WRITE. Word 7 = 0xFFFFFFFF makes a register >= p. -/
def Obligations.FieldWordWrite : Prop :=
  (∀ (s : State) (i : FReg) (k : WordIdx) (v : Word) (rest : List Event), s.rstN = true →
    ∃ t, step (withEvents (wr s.cfg (fieldOff i k) v :: rest) s) = .next t ∧
      (s.blk.busy = false →
        word (t.blk.readF i) k = v ∧
        (∀ k', k' ≠ k → word (t.blk.readF i) k' = word (s.blk.readF i) k') ∧
        (∀ j, j ≠ i → t.blk.readF j = s.blk.readF j) ∧
        t.blk = { s.blk with f := t.blk.f }) ∧
      (s.blk.busy = true →
        t.blk = raiseError .busyWrite
          (BitVec.ofNat 32 (0x100 + 0x20 * i.val + 4 * k.val + 4 * 2 ^ 12 + 2 ^ 16)) 0 s.blk)) ∧
  (∀ v : Elem, word v 7 = 0xFFFFFFFF#32 → Rom.p ≤ v.toNat)

/-- R226: while BUSY = 1 every well-formed write at 0x100-0x1FC is ignored and recorded as BUSY_WRITE, whichever
register it names; reads there raise nothing. -/
def Obligations.FieldAccessWhileBusy : Prop :=
  ∀ (s : State) (off : Off) (v : Word) (rest : List Event), s.rstN = true → s.blk.busy = true →
    off.toNat % 4 = 0 → 0x100 ≤ off.toNat → off.toNat ≤ 0x1FC →
    (∃ t info, step (withEvents (wr s.cfg off v :: rest) s) = .next t ∧
      t.blk = raiseError .busyWrite info 0 s.blk ∧ t.blk.f = s.blk.f ∧ t.blk.eng = s.blk.eng) ∧
    (∃ t, step (withEvents (Machine.rd s.cfg off :: rest) s) = .next t ∧ t.blk = s.blk)

/-- R76, R208, R227: a transaction of size other than 4 or at an offset that is no multiple of 4, anywhere in the
window, in any state, changes nothing but the error record; a read returns 0. -/
def Obligations.IllFormedAccessIsBadAccess : Prop :=
  ∀ (s : State) (x : Txn) (off : Off) (rest : List Event), s.rstN = true →
    offsetOf s.cfg x.addr = some off → (x.size ≠ 4 ∨ off.toNat % 4 ≠ 0) →
    ∃ t, step (withEvents (.host x :: rest) s) = .next t ∧
      t.blk = raiseError .badAccess
        (BitVec.ofNat 32 (off.toNat + x.size % 16 * 2 ^ 12 + if x.dir = .write then 2 ^ 16 else 0))
        0 s.blk ∧
      (x.dir = .read → t.rdata = some 0) ∧ t.rstN = s.rstN ∧ t.inbox = rest

/-- R232: with ERR = 1 and BUSY = 0 a legal command is accepted and completes normally, and a field register is
written; the error record stays. -/
def Obligations.ErrorDoesNotBlock : Prop :=
  ∀ (s : State) (rest : List Event), s.rstN = true → s.blk.busy = false → s.blk.err = true →
    (∀ (c : Word) (i : Instr), decode s.cfg c = some i → operandsLegal s.blk i = true →
      ∃ t u, step (withEvents (wr s.cfg 0x018#12 c :: rest) s) = .next t ∧ t.blk.busy = true ∧
        t.blk.err = true ∧ t.blk.ecode = s.blk.ecode ∧ t.blk.errinfo = s.blk.errinfo ∧
        step (withEvents (.engine :: rest) t) = .next u ∧ u.blk.busy = false ∧ u.blk.done = true ∧
        u.blk.readF i.rd = result (opOf i) (s.blk.readF i.rs1) (operandB s.blk i) ∧
        u.blk.err = true ∧ u.blk.ecode = s.blk.ecode ∧ u.blk.errinfo = s.blk.errinfo) ∧
    (∀ (i : FReg) (k : WordIdx) (v : Word),
      ∃ t, step (withEvents (wr s.cfg (fieldOff i k) v :: rest) s) = .next t ∧
        word (t.blk.readF i) k = v ∧ t.blk.err = true ∧ t.blk.ecode = s.blk.ecode)

/-- R221, R233: from a state without an error, a step records one exactly when its event breaks a hazard, an
operand range or the form of an access or a command. -/
def Obligations.ErrorExactlyOnMisuse : Prop :=
  ∀ s t : State, step s = .next t → s.blk.err = false →
    (t.blk.err = true ↔ respectsHazards s (nextEvent s.inbox).1 = false)

/-- R233: a host whose every event respects the hazards and keeps every operand in [0, p) never causes an error,
over any number of events; and each CMD write it makes is accepted. -/
def Obligations.RespectfulHostSeesNoError : Prop :=
  ∀ (es : List Event) (s : State), s.blk.err = false →
    (∀ n t e, n < es.length → Host.Core.run Sys2Proof.core n (withEvents es s) = .next t →
      t.inbox.head? = some e → respectsHazards t e = true) →
    (∃ u, runEvents es s = .next u ∧ u.blk.err = false) ∧
    (∀ n t e u, n < es.length → Host.Core.run Sys2Proof.core n (withEvents es s) = .next t →
      t.inbox.head? = some e → (writesTo .cmd t e).isSome = true → step t = .next u →
      u.blk.busy = true)

/-! ## Control, status, identification -/

/-- R196, R264: a CTRL write. With SRST it resets the block, IE included, and `irq` is 0; otherwise it writes IE
alone. -/
def Obligations.CtrlWriteSetsIeOrResets : Prop :=
  ∀ (s : State) (v : Word) (rest : List Event), s.rstN = true →
    ∃ t, step (withEvents (wr s.cfg 0x010#12 v :: rest) s) = .next t ∧
      (v.getLsbD 1 = true → t.blk = Block.reset ∧ t.blk.ie = false ∧ irq t = false) ∧
      (v.getLsbD 1 = false → t.blk = { s.blk with ie := v.getLsbD 0 }) ∧
      t.cfg = s.cfg ∧ t.rstN = true ∧ t.inbox = rest

/-- R198: a STATUS write clears DONE by bit 1 and the error record by bit 2; every other bit is ignored. -/
def Obligations.StatusWriteOneToClear : Prop :=
  ∀ (s : State) (v : Word) (rest : List Event), s.rstN = true →
    ∃ t, step (withEvents (wr s.cfg 0x014#12 v :: rest) s) = .next t ∧
      t.blk = { s.blk with
        done := s.blk.done && !v.getLsbD 1
        err := s.blk.err && !v.getLsbD 2
        eovf := s.blk.eovf && !v.getLsbD 2
        ecode := if v.getLsbD 2 then .none else s.blk.ecode
        rangeOps := if v.getLsbD 2 then 0 else s.blk.rangeOps
        errinfo := if v.getLsbD 2 then 0 else s.blk.errinfo }

/-- R197: the bits of the word a STATUS read returns; the read changes nothing. -/
def Obligations.StatusReadLayout : Prop :=
  ∀ (s : State) (rest : List Event), s.rstN = true →
    ∃ t w, step (withEvents (Machine.rd s.cfg 0x014#12 :: rest) s) = .next t ∧ t.blk = s.blk ∧
      t.rdata = some w ∧
      w.getLsbD 0 = s.blk.busy ∧ w.getLsbD 1 = s.blk.done ∧ w.getLsbD 2 = s.blk.err ∧
      w.getLsbD 3 = s.blk.eovf ∧ w.extractLsb' 4 4 = s.blk.ecode.code ∧
      w.extractLsb' 8 2 = s.blk.rangeOps ∧ w.extractLsb' 10 22 = 0#22

/-- R73: where the words of the field registers are. -/
def Obligations.FieldRegisterOffsets : Prop :=
  (∀ (i : FReg) (k : WordIdx),
    locate (BitVec.ofNat 12 (0x100 + 0x20 * i.val + 4 * k.val)) = .field i k) ∧
  (∀ off : Off, 0x100 ≤ off.toNat → off.toNat ≤ 0x1FC → off.extractLsb' 0 2 = 0#2 →
    locate off = .field (off.extractLsb' 5 3).toFin (off.extractLsb' 2 3).toFin) ∧
  (∀ (v : Elem) (k : WordIdx) (j : Nat), j < 32 → (word v k).getLsbD j = v.getLsbD (32 * k.val + j))

/-- R193: the identification and constant registers read their constants in every state; MODk and R2_k are the
words of p and R_SQUARED = 2^512 mod p. -/
def Obligations.ConstantsReadTheSameAlways : Prop :=
  (∀ (s : State) (rest : List Event) (off : Off) (w : Word), s.rstN = true →
    ((off, w) ∈ [(0x000#12, 0x50324D53#32), (0x004#12, 0x00000100#32), (0x00C#12, 0x00000008#32),
        (0x008#12, if s.cfg.extOps then 0x000007EF#32 else 0x000000EF#32)] ∨
      (∃ k : WordIdx, off.toNat = 0x020 + 4 * k.val ∧ w.toNat = Rom.p / 2 ^ (32 * k.val) % 2 ^ 32) ∨
      (∃ k : WordIdx, off.toNat = 0x040 + 4 * k.val ∧
        w.toNat = (2 ^ 256 % Rom.p) * (2 ^ 256 % Rom.p) % Rom.p / 2 ^ (32 * k.val) % 2 ^ 32)) →
    ∃ t, step (withEvents (Machine.rd s.cfg off :: rest) s) = .next t ∧ t.rdata = some w ∧
      t.blk = s.blk) ∧
  word Rom.P 2 = 0 ∧ word Rom.P 7 = 0xFFFFFFFE#32 ∧ word Rom.R2 0 = 3

/-- R74: reads of reserved offsets return 0; writes to reserved and read-only offsets change nothing; neither
records an error. -/
def Obligations.ReservedAndReadOnlyOffsets : Prop :=
  ∀ (s : State) (off : Off) (v : Word) (rest : List Event), s.rstN = true → off.toNat % 4 = 0 →
    ((0x060 ≤ off.toNat ∧ off.toNat ≤ 0x0FC) ∨ 0x200 ≤ off.toNat →
      ∃ t, step (withEvents (Machine.rd s.cfg off :: rest) s) = .next t ∧ t.rdata = some 0 ∧
        t.blk = s.blk) ∧
    ((0x060 ≤ off.toNat ∧ off.toNat ≤ 0x0FC) ∨ 0x200 ≤ off.toNat ∨ off.toNat ≤ 0x00C ∨
        (0x01C ≤ off.toNat ∧ off.toNat ≤ 0x05C) →
      ∃ t, step (withEvents (wr s.cfg off v :: rest) s) = .next t ∧ t.blk = s.blk)

/-- R83, R191: a well-formed read, at any offset, changes no state of the block, and repeating it returns the same
value. CTRL, CMD, ERRINFO and a field register word read as they stand, in every state (R195, R199, R200, R206). -/
def Obligations.ReadsAreIdempotent : Prop :=
  ∀ (s : State) (off : Off) (rest : List Event), s.rstN = true → off.toNat % 4 = 0 →
    ∃ t u w, step (withEvents (Machine.rd s.cfg off :: Machine.rd s.cfg off :: rest) s) = .next t ∧
      step t = .next u ∧ t.blk = s.blk ∧ u.blk = s.blk ∧ t.rdata = some w ∧ u.rdata = some w ∧
      u.inbox = rest ∧
      (off = 0x010#12 → w.toNat = if s.blk.ie then 1 else 0) ∧
      (off = 0x018#12 → w = s.blk.cmdrb) ∧
      (off = 0x01C#12 → w = s.blk.errinfo) ∧
      (∀ i k, off = fieldOff i k → w = word (s.blk.readF i) k)

/-- R48, R237: `irq` is the level IE and (DONE or ERR); masking, clearing the last cause and issuing a command
each make it fall; reading STATUS does not. -/
def Obligations.IrqLevelAndItsClearing : Prop :=
  (∀ s : State, irq s = true ↔ s.blk.ie = true ∧ (s.blk.done = true ∨ s.blk.err = true)) ∧
  (∀ (s : State) (rest : List Event), s.rstN = true →
    (∃ t, step (withEvents (Machine.rd s.cfg 0x014#12 :: rest) s) = .next t ∧ irq t = irq s) ∧
    (∃ t, step (withEvents (wr s.cfg 0x014#12 6 :: rest) s) = .next t ∧ irq t = false) ∧
    (∃ t, step (withEvents (wr s.cfg 0x010#12 0 :: rest) s) = .next t ∧ irq t = false ∧
      t.blk.done = s.blk.done ∧ t.blk.err = s.blk.err) ∧
    (∀ c i, decode s.cfg c = some i → s.blk.busy = false → s.blk.err = false →
      operandsLegal s.blk i = true →
      ∃ t, step (withEvents (wr s.cfg 0x018#12 c :: rest) s) = .next t ∧ irq t = false))

/-! ## Reset -/

/-- R50: the value of every piece of state after a hardware reset and after a soft reset, from any state that
takes it; the constants read as before. -/
def Obligations.ResetValues : Prop :=
  ∀ (s t : State) (e : Event) (rest : List Event), resetsNow s e = true →
    step (withEvents (e :: rest) s) = .next t →
    (∀ i, t.blk.readF i = 0) ∧ t.blk.ie = false ∧ t.blk.busy = false ∧ t.blk.done = false ∧
      t.blk.err = false ∧ t.blk.eovf = false ∧ t.blk.ecode.code = 0 ∧ t.blk.rangeOps = 0 ∧
      t.blk.cmdrb = 0 ∧ t.blk.errinfo = 0 ∧
      t.blk.eng.opc.code = 0 ∧ t.blk.eng.rd = 0 ∧ t.blk.eng.a = 0 ∧ t.blk.eng.b = 0 ∧
      t.blk.eng.t = 0 ∧ irq t = false ∧ t.cfg = s.cfg ∧
      (∀ off : Off, off.toNat < 0x010 ∨ (0x020 ≤ off.toNat ∧ off.toNat < 0x060) →
        readAt t off = readAt s off)

/-- R262: once `rst_n` is asserted, and until it is deasserted, the block stays at its reset values whatever the
host and the ENGINE do; a read returns 0; after it is deasserted transactions are performed again. -/
def Obligations.NothingHappensDuringReset : Prop :=
  (∀ (es : List Event) (s : State), (∀ e ∈ es, e ≠ .rstN true) →
    ∃ t u, runEvents (.rstN false :: es) s = .next t ∧ t.blk = Block.reset ∧ t.rstN = false ∧
      step (withEvents [.rstN true] t) = .next u ∧ u.blk = Block.reset ∧ u.rstN = true) ∧
  (∀ (s t : State) (x : Txn) (off : Off) (rest : List Event), s.rstN = false → x.dir = .read →
    offsetOf s.cfg x.addr = some off → step (withEvents (.host x :: rest) s) = .next t →
    t.rdata = some 0 ∧ t.blk = s.blk)

/-- R263: a soft reset is one step in every state; it abandons a command in flight, whose destination is zeroed
with the others and which no later ENGINE turn completes; it records no error; an ill-formed CTRL write does
not reset. -/
def Obligations.SoftResetAbortsCommand : Prop :=
  ∀ (s : State) (rest : List Event), s.rstN = true →
    (∀ v : Word, v.getLsbD 1 = true →
      ∃ t u, step (withEvents (wr s.cfg 0x010#12 v :: rest) s) = .next t ∧ t.blk = Block.reset ∧
        step (withEvents (.engine :: rest) t) = .next u ∧ u.blk = Block.reset) ∧
    (∀ (x : Txn) (off : Off), x.dir = .write → offsetOf s.cfg x.addr = some off →
      0x010 ≤ off.toNat → off.toNat < 0x014 → (x.size ≠ 4 ∨ off ≠ 0x010#12) →
      ∃ t, step (withEvents (.host x :: rest) s) = .next t ∧
        t.blk = raiseError .badAccess (accessInfo off x.size .write) 0 s.blk ∧
        t.blk.f = s.blk.f ∧ t.blk.ie = s.blk.ie ∧ t.blk.busy = s.blk.busy ∧ t.blk.eng = s.blk.eng)

/-! ## Rules of the whole machine -/

/-- R23: a field register changes only by completion of a command with that destination, by a host write of one
of its words while BUSY = 0, or by a reset. -/
def Obligations.WhatWritesFieldRegisters : Prop :=
  ∀ (s t : State) (i : FReg), step s = .next t → t.blk.readF i ≠ s.blk.readF i →
    (completesCommand s (nextEvent s.inbox).1 = true ∧ s.blk.eng.rd = i) ∨
    (s.blk.busy = false ∧ ∃ k v, writesTo (.field i k) s (nextEvent s.inbox).1 = some v) ∨
    resetsNow s (nextEvent s.inbox).1 = true

/-- R39: BUSY rises exactly at the acceptance of a legal command, and falls exactly at completion or reset; while
it stays 1 the ENGINE holds the same command. -/
def Obligations.BusyRisesAndFalls : Prop :=
  ∀ s t : State, step s = .next t →
    (s.blk.busy = false →
      (t.blk.busy = true ↔ acceptsCommand s (nextEvent s.inbox).1 = true)) ∧
    (s.blk.busy = true →
      (t.blk.busy = false ↔ completesCommand s (nextEvent s.inbox).1 = true ∨
        resetsNow s (nextEvent s.inbox).1 = true) ∧
      (t.blk.busy = true → t.blk.eng = s.blk.eng))

/-- R40: DONE rises exactly at completion, and falls exactly by a CMD write made while BUSY = 0, a STATUS write
with bit 1 = 1, or reset; BUSY and DONE do not become 1 together. -/
def Obligations.DoneRisesAndFalls : Prop :=
  ∀ s t : State, step s = .next t →
    (s.blk.done = false →
      (t.blk.done = true ↔ completesCommand s (nextEvent s.inbox).1 = true)) ∧
    (s.blk.done = true →
      (t.blk.done = false ↔ clearsDone s (nextEvent s.inbox).1 = true)) ∧
    (¬(s.blk.busy = true ∧ s.blk.done = true) → ¬(t.blk.busy = true ∧ t.blk.done = true))

/-- The invariant is kept by every step, from every state that meets it (R40, R41, R43, R203, R223, R229, R262). -/
def Obligations.EveryStepKeepsInv : Prop :=
  ∀ s t : State, Inv s → step s = .next t → Inv t

/-- The state after reset meets the invariant, in every configuration. -/
def Obligations.ResetMeetsInv : Prop :=
  Inv State.reset ∧ ∀ cfg : Config, Inv (State.resetOf cfg)

/-- R46, R47: the hidden engine state is not observable: two machines alike in all that transactions can read, and
differing in ENG.T, in ENG while BUSY = 0 and in the model's free values, stay so, step by step. -/
def Obligations.HiddenStateIsNotObservable : Prop :=
  ∀ s s' t : State, SameVisible s s' → step s = .next t →
    ∃ t', step s' = .next t' ∧ SameVisible t t' ∧ irq t = irq t' ∧
      ∀ off, readAt t off = readAt t' off

/-- R14: from any state outside reset, whatever events are pending, BUSY = 0 is reached once they and one more
ENGINE turn have been performed, or before. (That the ENGINE has its turn when no event is pending is the
model's choice, assumption 1.) -/
def Obligations.CommandCompletesEventually : Prop :=
  ∀ s : State, s.rstN = true →
    ∃ n t, n ≤ s.inbox.length + 1 ∧ Host.Core.run Sys2Proof.core n s = .next t ∧ t.blk.busy = false

/-- R89, R203, R269: once a legal command is accepted, no host traffic short of a reset changes its result or any
field register: whatever transactions `es` come between its CMD write and the ENGINE's turn, F[rd] becomes the
result of the operands at acceptance and every other field register is as it was. -/
def Obligations.ResultSurvivesHostTraffic : Prop :=
  ∀ (s : State) (c : Word) (i : Instr) (es : List Event), s.rstN = true → s.blk.busy = false →
    decode s.cfg c = some i → operandsLegal s.blk i = true →
    (∀ e ∈ es, (∃ x, e = .host x) ∧ resets s.cfg e = false) →
    ∃ t, runEvents (wr s.cfg 0x018#12 c :: es ++ [.engine]) s = .next t ∧
      t.blk.busy = false ∧ t.blk.done = true ∧
      (∀ j, t.blk.readF j =
        if j = i.rd then result (opOf i) (s.blk.readF i.rs1) (operandB s.blk i) else s.blk.readF j)

/-- R92: the read race: a word of F[rd] read before the ENGINE's turn is the old one, read after it the result's;
both orders are runs of the model. -/
def Obligations.ReadRaceHasBothOutcomes : Prop :=
  ∀ (s : State) (k : WordIdx), s.rstN = true → s.blk.busy = true →
    ∃ t u, runEvents [Machine.rd s.cfg (fieldOff s.blk.eng.rd k)] s = .next t ∧
      t.rdata = some (word (s.blk.readF s.blk.eng.rd) k) ∧ t.blk = s.blk ∧
      runEvents [.engine, Machine.rd s.cfg (fieldOff s.blk.eng.rd k)] s = .next u ∧
      u.rdata = some (word (result s.blk.eng.opc s.blk.eng.a s.blk.eng.b) k)

/-! ## Arithmetic -/

/-- R136: the laws of the Montgomery family on [0, p). -/
def Obligations.MontgomeryLaws : Prop :=
  ∀ a b c : Elem, a.toNat < Rom.p → b.toNat < Rom.p → c.toNat < Rom.p →
    montMul (montMul a Rom.R2) 1 = a ∧
    montMul (montMul a 1) Rom.R2 = a ∧
    (montMul (montMul (montMul a Rom.R2) (montMul b Rom.R2)) 1).toNat = a.toNat * b.toNat % Rom.p ∧
    result .sqr a a = result .mul a a ∧
    (montMul a b).toNat < Rom.p ∧
    montMul a b = montMul b a ∧
    montMul (montMul a b) c = montMul a (montMul b c) ∧
    montMul a (BitVec.ofNat 256 (2 ^ 256 % Rom.p)) = a

/-- R160, R169: the laws of the additive family on [0, p), and that it works the same in both domains. -/
def Obligations.AdditiveLaws : Prop :=
  ∀ a b c : Elem, a.toNat < Rom.p → b.toNat < Rom.p → c.toNat < Rom.p →
    (modAdd a b = modAdd b a ∧ modAdd (modAdd a b) c = modAdd a (modAdd b c) ∧ modAdd a 0 = a) ∧
    (modSub a b = modAdd a (modNeg b) ∧ modNeg (modNeg a) = a) ∧
    (modDbl a = modAdd a a ∧ modTpl a = modAdd (modDbl a) a ∧ modDbl (modHlv a) = a ∧
      modHlv (modDbl a) = a) ∧
    ((modAdd a b).toNat < Rom.p ∧ (modSub a b).toNat < Rom.p ∧ (modNeg a).toNat < Rom.p ∧
      (modHlv a).toNat < Rom.p ∧ (modDbl a).toNat < Rom.p ∧ (modTpl a).toNat < Rom.p) ∧
    (montMul (modAdd (montMul a Rom.R2) (montMul b Rom.R2)) 1 = modAdd a b ∧
      montMul (modSub (montMul a Rom.R2) (montMul b Rom.R2)) 1 = modSub a b ∧
      montMul (modNeg (montMul a Rom.R2)) 1 = modNeg a ∧
      montMul (modHlv (montMul a Rom.R2)) 1 = modHlv a ∧
      montMul (modDbl (montMul a Rom.R2)) 1 = modDbl a ∧
      montMul (modTpl (montMul a Rom.R2)) 1 = modTpl a)

/-- R137: the word-serial reduction, with 32-bit and with 64-bit words, computes MontMul on all legal operands. The
algorithm is informative, from general knowledge (93_implementation_defined.md G2); only R131's result is normative. -/
def Obligations.WordSerialReductionIsMontMul : Prop :=
  ∀ a b : Elem, a.toNat < Rom.p → b.toNat < Rom.p →
    redc 32 8 a b = (montMul a b).toNat ∧ redc 64 4 a b = (montMul a b).toNat

/-- R139: the Montgomery forms of small constants, and how far the form is the plain multiple of R mod p. -/
def Obligations.MontgomeryFormsOfSmallValues : Prop :=
  montMul 0 Rom.R2 = 0 ∧
  montMul 1 Rom.R2 = 0x0000000100000000000000000000000000000000FFFFFFFF0000000000000001#256 ∧
  montMul 2 Rom.R2 = 0x0000000200000000000000000000000000000001FFFFFFFE0000000000000002#256 ∧
  montMul 3 Rom.R2 = 0x0000000300000000000000000000000000000002FFFFFFFD0000000000000003#256 ∧
  montMul 4 Rom.R2 = 0x0000000400000000000000000000000000000003FFFFFFFC0000000000000004#256 ∧
  montMul 6 Rom.R2 = 0x0000000600000000000000000000000000000005FFFFFFFA0000000000000006#256 ∧
  montMul (Rom.P - 1) Rom.R2 =
    0xFFFFFFFDFFFFFFFFFFFFFFFFFFFFFFFFFFFFFFFE00000001FFFFFFFFFFFFFFFE#256 ∧
  (∀ v : Nat, v ≤ 0xFFFFFFFE →
    (montMul (BitVec.ofNat 256 v) Rom.R2).toNat = v * (2 ^ 256 % Rom.p)) ∧
  0xFFFFFFFE * (2 ^ 256 % Rom.p) < Rom.p ∧ Rom.p < 0xFFFFFFFF * (2 ^ 256 % Rom.p)

/-! ## Pseudo-instructions -/

/-- R115, R116, R117: WAIT, a command followed by `!`, and what each command pseudo-instruction leaves in its
destination.

WAIT, whatever is performed at the block between its reads: where it ends, BUSY = 0 and the word read is STATUS; a
turn whose read sees BUSY = 1 goes on to the next and has changed nothing, one that sees BUSY = 0 ends it. A command
with `!` from an idle block: a legal one ends its loop in whichever turn the ENGINE's step comes before, with DONE = 1,
ERR as it was and its result in F[rd] alone; a refused one ends it in the first turn, with DONE = 0, ERR = 1, a cause
recorded and no field register changed. The pseudo-instructions follow, for every number of turns of each of their
loops. That the turns of a loop are an argument is the model's form (assumption 20); that the host is alone at the
port and that the ENGINE's step comes (R14) are the hypothesis `EngineTurns`. -/
def Obligations.PseudoInstructionResults : Prop :=
  (∀ (s t : State) (turns : List (List Event)), s.rstN = true → waitLoop turns s = .next (.done t) →
    t.blk.busy = false ∧ t.rdata = some (statusWord t.blk)) ∧
  (∀ (s : State) (turns : List (List Event)), s.rstN = true →
    ∃ t, t.blk = s.blk ∧ t.rstN = true ∧ t.cfg = s.cfg ∧
      waitLoop ([] :: turns) s = if s.blk.busy then waitLoop turns t else .next (.done t)) ∧
  (∀ (i : Instr) (s : State) (turns : List (List Event)), s.rstN = true → s.blk.busy = false →
    i.wf s.cfg = true → operandsLegal s.blk i = true → EngineTurns turns →
    ∃ t, sync i turns s = .next (.done t) ∧ t.blk.busy = false ∧ t.blk.done = true ∧
      t.blk.err = s.blk.err ∧
      (∀ j, t.blk.readF j =
        if j = i.rd then result (opOf i) (s.blk.readF i.rs1) (operandB s.blk i) else s.blk.readF j)) ∧
  (∀ (i : Instr) (s : State) (g : List Event) (turns : List (List Event)), s.rstN = true →
    s.blk.busy = false → (i.wf s.cfg && operandsLegal s.blk i) = false → (∀ e ∈ g, e = .engine) →
    ∃ t, sync i (g :: turns) s = .next (.done t) ∧ t.blk.busy = false ∧ t.blk.done = false ∧
      t.blk.err = true ∧ t.blk.f = s.blk.f ∧
      (s.blk.err = false → t.blk.ecode = if i.wf s.cfg then .range else .illegalCmd)) ∧
  (∀ (s : State) (d a b x : FReg) (w1 w2 : List (List Event)), s.rstN = true → s.blk.busy = false →
    (s.blk.readF a).toNat < Rom.p → (s.blk.readF b).toNat < Rom.p → EngineTurns w1 → EngineTurns w2 →
    (∃ t, runEvents (clr s.cfg d a ++ [.engine, poll s.cfg]) s = .next t ∧ t.blk.readF d = 0 ∧
      waitExits t = true) ∧
    (∃ t, mov d a w1 w2 s = .next (.done t) ∧ t.blk.readF d = s.blk.readF a) ∧
    (∃ t, dbl2 d a w1 s = .next (.done t) ∧ t.blk.readF d = modDbl (s.blk.readF a)) ∧
    (x ≠ a → ∃ t, tpl2 d a x w1 w2 s = .next (.done t) ∧ t.blk.readF d = modTpl (s.blk.readF a)) ∧
    (∃ t, mmuln d a b w1 w2 s = .next (.done t) ∧
      (t.blk.readF d).toNat = (s.blk.readF a).toNat * (s.blk.readF b).toNat % Rom.p))

/-- R113, R114: LDF loads all 256 bits of a register of an idle block and nothing else; the words STF reads, in
order, are those of the register, and together are its value. -/
def Obligations.LoadAndStoreFieldRegister : Prop :=
  ∀ (s : State) (i : FReg) (v : Elem), s.rstN = true →
    (s.blk.busy = false → ∃ t, runEvents (ldf s.cfg i v) s = .next t ∧ t.blk.readF i = v ∧
      (∀ j, j ≠ i → t.blk.readF j = s.blk.readF j) ∧ t.blk = { s.blk with f := t.blk.f }) ∧
    (∀ k : WordIdx, ∃ t, runEvents ((stf s.cfg i).take (k.val + 1)) s = .next t ∧
      t.rdata = some (word (s.blk.readF i) k) ∧ t.blk = s.blk) ∧
    joinWords (wordOrder.map (word v)) = v.toNat
end

