-- ==== Sys2Proof/Laws/Arith.lean ====
section
/-! SUPPORT. One arithmetic law per function of the two command families: its value as a natural number. -/

namespace Sys2Proof.Machine

theorem p_pos : 0 < Rom.p := by decide

theorem p_lt : Rom.p < 2 ^ 256 := by decide

/-- The radix and its inverse (R30). -/
theorem invR_spec : Rom.invR * 2 ^ 256 % Rom.p = 1 := by decide

theorem toNat_ofNat_of_lt_p {n : Nat} (h : n < Rom.p) : (BitVec.ofNat 256 n).toNat = n := by
  rw [BitVec.toNat_ofNat]; exact Nat.mod_eq_of_lt (h.trans p_lt)

theorem R2_lt : Rom.R2.toNat < Rom.p := by decide

theorem ONE_toNat : Rom.ONE.toNat = 1 := by decide

/-- The product of two 256-bit values fits ENG.T (R138). -/
theorem product_toNat (a b : Elem) : (product a b).toNat = a.toNat * b.toNat := by
  have h : a.toNat * b.toNat < 2 ^ 256 * 2 ^ 256 :=
    Nat.mul_lt_mul'' a.isLt b.isLt
  rw [product, BitVec.toNat_ofNat]
  exact Nat.mod_eq_of_lt (h.trans_eq (by rw [← pow_add]))

theorem montMul_toNat (a b : Elem) :
    (montMul a b).toNat = a.toNat * b.toNat * Rom.invR % Rom.p := by
  rw [montMul, montReduce, product_toNat]
  exact toNat_ofNat_of_lt_p (Nat.mod_lt _ p_pos)

theorem montMul_lt (a b : Elem) : (montMul a b).toNat < Rom.p := by
  rw [montMul_toNat]; exact Nat.mod_lt _ p_pos

/-- Multiplication by R can be cancelled mod p. -/
theorem cancel_R {x y : Nat} (h : x * 2 ^ 256 ≡ y * 2 ^ 256 [MOD Rom.p]) : x ≡ y [MOD Rom.p] := by
  have h1 : Rom.invR * 2 ^ 256 ≡ 1 [MOD Rom.p] := invR_spec
  have key : ∀ z : Nat, z * 2 ^ 256 * Rom.invR ≡ z [MOD Rom.p] := fun z => by
    have := h1.mul_left z
    rwa [Nat.mul_one, Nat.mul_comm Rom.invR, ← Nat.mul_assoc] at this
  exact (key x).symm.trans ((h.mul_right _).trans (key y))

/-- MontMul(a, b) * R = a * b (mod p) (R131). -/
theorem montMul_mul_R (a b : Elem) :
    (montMul a b).toNat * 2 ^ 256 ≡ a.toNat * b.toNat [MOD Rom.p] := by
  have h1 : Rom.invR * 2 ^ 256 ≡ 1 [MOD Rom.p] := invR_spec
  rw [montMul_toNat]
  refine ((Nat.mod_modEq _ _).mul_right _).trans ?_
  have := h1.mul_left (a.toNat * b.toNat)
  rwa [Nat.mul_one, ← Nat.mul_assoc] at this

/-- Two elements of [0, p) congruent mod p are equal. -/
theorem eq_of_modEq {a b : Elem} (ha : a.toNat < Rom.p) (hb : b.toNat < Rom.p)
    (h : a.toNat ≡ b.toNat [MOD Rom.p]) : a = b := by
  apply BitVec.eq_of_toNat_eq
  have := Nat.ModEq.eq_of_lt_of_lt h ha hb
  exact this

theorem reduceOnce_toNat {n : Nat} (h : n < 2 * Rom.p) : (reduceOnce n).toNat = n % Rom.p := by
  unfold reduceOnce
  split
  · next hp =>
    rw [toNat_ofNat_of_lt_p (by omega), Nat.mod_eq_sub_mod hp, Nat.mod_eq_of_lt (by omega)]
  · next hp => rw [toNat_ofNat_of_lt_p (by omega), Nat.mod_eq_of_lt (by omega)]

/-- ADD (R163). -/
theorem modAdd_toNat {a b : Elem} (ha : a.toNat < Rom.p) (hb : b.toNat < Rom.p) :
    (modAdd a b).toNat = (a.toNat + b.toNat) % Rom.p := reduceOnce_toNat (by omega)

/-- SUB (R164), with the borrow wrapped. -/
theorem modSub_toNat {a b : Elem} (ha : a.toNat < Rom.p) (hb : b.toNat < Rom.p) :
    (modSub a b).toNat = (a.toNat + (Rom.p - b.toNat)) % Rom.p := by
  unfold modSub
  split
  · next h =>
    rw [toNat_ofNat_of_lt_p (by omega), Nat.mod_eq_sub_mod (by omega), Nat.mod_eq_of_lt (by omega)]
    omega
  · next h => rw [toNat_ofNat_of_lt_p (by omega), Nat.mod_eq_of_lt (by omega)]; omega

/-- NEG (R165). -/
theorem modNeg_toNat {a : Elem} (ha : a.toNat < Rom.p) :
    (modNeg a).toNat = (Rom.p - a.toNat) % Rom.p := by
  have := p_pos
  unfold modNeg
  split
  · next h => rw [h]; simp
  · next h => rw [toNat_ofNat_of_lt_p (by omega), Nat.mod_eq_of_lt (by omega)]

theorem p_odd : Rom.p % 2 = 1 := by decide

/-- HLV (R166): the half, doubled, is the operand or the operand plus p. -/
theorem modHlv_toNat {a : Elem} (ha : a.toNat < Rom.p) :
    (modHlv a).toNat = (if a.toNat % 2 = 1 then a.toNat + Rom.p else a.toNat) / 2 := by
  have hp := p_odd
  have hb : a.getLsbD 0 = decide (a.toNat % 2 = 1) := by
    simp [BitVec.getLsbD, Nat.testBit_zero]
  unfold modHlv
  by_cases h : a.toNat % 2 = 1
  · rw [hb, if_pos (by simpa using h), if_pos h, Nat.shiftRight_eq_div_pow,
      toNat_ofNat_of_lt_p (by omega)]
  · rw [hb, if_neg (by simpa using h), if_neg h, Nat.shiftRight_eq_div_pow,
      toNat_ofNat_of_lt_p (by omega)]

/-- DBL (R167). -/
theorem modDbl_toNat {a : Elem} (ha : a.toNat < Rom.p) :
    (modDbl a).toNat = 2 * a.toNat % Rom.p := reduceOnce_toNat (by omega)

/-- TPL (R168). -/
theorem modTpl_toNat (a : Elem) : (modTpl a).toNat = 3 * a.toNat % Rom.p :=
  toNat_ofNat_of_lt_p (Nat.mod_lt _ p_pos)

/-- Every result on legal operands is in [0, p) (R130, R162). -/
theorem result_lt (o : Op) {a b : Elem} (ha : a.toNat < Rom.p) (hb : b.toNat < Rom.p) :
    (result o a b).toNat < Rom.p := by
  have hp := p_pos
  cases o <;> simp only [result, montMul_lt]
  · rw [modAdd_toNat ha hb]; exact Nat.mod_lt _ hp
  · rw [modSub_toNat ha hb]; exact Nat.mod_lt _ hp
  · rw [modNeg_toNat ha]; exact Nat.mod_lt _ hp
  · rw [modHlv_toNat ha]; have := p_odd; split <;> omega
  · rw [modDbl_toNat ha]; exact Nat.mod_lt _ hp
  · rw [modTpl_toNat]; exact Nat.mod_lt _ hp

end Sys2Proof.Machine
end

