-- ==== Sys2Proof/Laws/State.lean ====
section
/-! SUPPORT. The small laws of the state: one per field per update. -/

namespace Sys2Proof.Machine

/-! ## Field registers -/

@[simp] theorem Block.readF_writeF_same (b : Block) (i : FReg) (v : Elem) :
    (b.writeF i v).readF i = v := by simp [Block.readF, Block.writeF]

theorem Block.readF_writeF_ne (b : Block) {i j : FReg} (v : Elem) (h : j ≠ i) :
    (b.writeF i v).readF j = b.readF j := by
  have : i.val ≠ j.val := fun e => h (Fin.ext e.symm)
  simp [Block.readF, Block.writeF, this]

theorem Block.readF_writeF (b : Block) (i j : FReg) (v : Elem) :
    (b.writeF i v).readF j = if j = i then v else b.readF j := by
  split
  · next h => subst h; simp
  · next h => exact Block.readF_writeF_ne b v h

/-- Two blocks whose field registers read the same have the same register file. -/
theorem Block.f_ext {b c : Block} (h : ∀ i, b.readF i = c.readF i) : b.f = c.f := by
  apply Vector.ext
  intro i hi
  exact h ⟨i, hi⟩

@[simp] theorem Block.writeF_ie (b : Block) (i : FReg) (v : Elem) : (b.writeF i v).ie = b.ie := rfl
@[simp] theorem Block.writeF_busy (b : Block) (i : FReg) (v : Elem) : (b.writeF i v).busy = b.busy := rfl
@[simp] theorem Block.writeF_done (b : Block) (i : FReg) (v : Elem) : (b.writeF i v).done = b.done := rfl
@[simp] theorem Block.writeF_err (b : Block) (i : FReg) (v : Elem) : (b.writeF i v).err = b.err := rfl
@[simp] theorem Block.writeF_eovf (b : Block) (i : FReg) (v : Elem) : (b.writeF i v).eovf = b.eovf := rfl
@[simp] theorem Block.writeF_ecode (b : Block) (i : FReg) (v : Elem) : (b.writeF i v).ecode = b.ecode := rfl
@[simp] theorem Block.writeF_rangeOps (b : Block) (i : FReg) (v : Elem) :
    (b.writeF i v).rangeOps = b.rangeOps := rfl
@[simp] theorem Block.writeF_cmdrb (b : Block) (i : FReg) (v : Elem) : (b.writeF i v).cmdrb = b.cmdrb := rfl
@[simp] theorem Block.writeF_errinfo (b : Block) (i : FReg) (v : Elem) :
    (b.writeF i v).errinfo = b.errinfo := rfl
@[simp] theorem Block.writeF_eng (b : Block) (i : FReg) (v : Elem) : (b.writeF i v).eng = b.eng := rfl

/-! ## The reset block -/

@[simp] theorem Block.reset_readF (i : FReg) : Block.reset.readF i = 0 := by
  simp [Block.readF, Block.reset]
@[simp] theorem Block.reset_ie : Block.reset.ie = false := rfl
@[simp] theorem Block.reset_busy : Block.reset.busy = false := rfl
@[simp] theorem Block.reset_done : Block.reset.done = false := rfl
@[simp] theorem Block.reset_err : Block.reset.err = false := rfl
@[simp] theorem Block.reset_eovf : Block.reset.eovf = false := rfl
@[simp] theorem Block.reset_ecode : Block.reset.ecode = .none := rfl
@[simp] theorem Block.reset_rangeOps : Block.reset.rangeOps = 0 := rfl
@[simp] theorem Block.reset_cmdrb : Block.reset.cmdrb = 0 := rfl
@[simp] theorem Block.reset_errinfo : Block.reset.errinfo = 0 := rfl

/-! ## The error record -/

section raiseError
variable (code : ErrCode) (info : Word) (ops : BitVec 2) (b : Block)

@[simp] theorem raiseError_f : (raiseError code info ops b).f = b.f := by unfold raiseError; split <;> rfl
@[simp] theorem raiseError_readF (i : FReg) : (raiseError code info ops b).readF i = b.readF i := by
  unfold raiseError; split <;> rfl
@[simp] theorem raiseError_ie : (raiseError code info ops b).ie = b.ie := by unfold raiseError; split <;> rfl
@[simp] theorem raiseError_busy : (raiseError code info ops b).busy = b.busy := by
  unfold raiseError; split <;> rfl
@[simp] theorem raiseError_done : (raiseError code info ops b).done = b.done := by
  unfold raiseError; split <;> rfl
@[simp] theorem raiseError_cmdrb : (raiseError code info ops b).cmdrb = b.cmdrb := by
  unfold raiseError; split <;> rfl
@[simp] theorem raiseError_eng : (raiseError code info ops b).eng = b.eng := by
  unfold raiseError; split <;> rfl
@[simp] theorem raiseError_err : (raiseError code info ops b).err = true := by
  unfold raiseError; split <;> simp_all
theorem raiseError_eovf : (raiseError code info ops b).eovf = (b.err || b.eovf) := by
  unfold raiseError; split <;> simp_all
theorem raiseError_ecode : (raiseError code info ops b).ecode = if b.err then b.ecode else code := by
  unfold raiseError; split <;> rfl
theorem raiseError_rangeOps :
    (raiseError code info ops b).rangeOps = if b.err then b.rangeOps else ops := by
  unfold raiseError; split <;> rfl
theorem raiseError_errinfo :
    (raiseError code info ops b).errinfo = if b.err then b.errinfo else info := by
  unfold raiseError; split <;> rfl

end raiseError

@[simp] theorem clearError_f (b : Block) : (clearError b).f = b.f := rfl
@[simp] theorem clearError_readF (b : Block) (i : FReg) : (clearError b).readF i = b.readF i := rfl
@[simp] theorem clearError_ie (b : Block) : (clearError b).ie = b.ie := rfl
@[simp] theorem clearError_busy (b : Block) : (clearError b).busy = b.busy := rfl
@[simp] theorem clearError_done (b : Block) : (clearError b).done = b.done := rfl
@[simp] theorem clearError_err (b : Block) : (clearError b).err = false := rfl
@[simp] theorem clearError_eovf (b : Block) : (clearError b).eovf = false := rfl
@[simp] theorem clearError_ecode (b : Block) : (clearError b).ecode = .none := rfl
@[simp] theorem clearError_rangeOps (b : Block) : (clearError b).rangeOps = 0 := rfl
@[simp] theorem clearError_errinfo (b : Block) : (clearError b).errinfo = 0 := rfl
@[simp] theorem clearError_cmdrb (b : Block) : (clearError b).cmdrb = b.cmdrb := rfl
@[simp] theorem clearError_eng (b : Block) : (clearError b).eng = b.eng := rfl

@[simp] theorem clearDone_f (b : Block) : (clearDone b).f = b.f := rfl
@[simp] theorem clearDone_ie (b : Block) : (clearDone b).ie = b.ie := rfl
@[simp] theorem clearDone_busy (b : Block) : (clearDone b).busy = b.busy := rfl
@[simp] theorem clearDone_err (b : Block) : (clearDone b).err = b.err := rfl
@[simp] theorem clearDone_eovf (b : Block) : (clearDone b).eovf = b.eovf := rfl
@[simp] theorem clearDone_ecode (b : Block) : (clearDone b).ecode = b.ecode := rfl
@[simp] theorem clearDone_rangeOps (b : Block) : (clearDone b).rangeOps = b.rangeOps := rfl
@[simp] theorem clearDone_cmdrb (b : Block) : (clearDone b).cmdrb = b.cmdrb := rfl
@[simp] theorem clearDone_errinfo (b : Block) : (clearDone b).errinfo = b.errinfo := rfl
@[simp] theorem clearDone_eng (b : Block) : (clearDone b).eng = b.eng := rfl
@[simp] theorem clearDone_done (b : Block) : (clearDone b).done = false := rfl
@[simp] theorem clearDone_readF (b : Block) (i : FReg) : (clearDone b).readF i = b.readF i := rfl

@[simp] theorem hardReset_eq (b : Block) : hardReset b = Block.reset := rfl

/-! ## Acceptance and completion, field by field -/

section latch
variable (o : Op) (rd : FReg) (a b : Elem) (s : State)

@[simp] theorem latch_cfg : (latch o rd a b s).cfg = s.cfg := rfl
@[simp] theorem latch_rstN : (latch o rd a b s).rstN = s.rstN := rfl
@[simp] theorem latch_turn : (latch o rd a b s).turn = s.turn := rfl
@[simp] theorem latch_rdata : (latch o rd a b s).rdata = s.rdata := rfl
@[simp] theorem latch_inbox : (latch o rd a b s).inbox = s.inbox := rfl
@[simp] theorem latch_f : (latch o rd a b s).blk.f = s.blk.f := rfl
@[simp] theorem latch_busy : (latch o rd a b s).blk.busy = true := rfl
@[simp] theorem latch_done : (latch o rd a b s).blk.done = s.blk.done := rfl
@[simp] theorem latch_err : (latch o rd a b s).blk.err = s.blk.err := rfl
@[simp] theorem latch_eovf : (latch o rd a b s).blk.eovf = s.blk.eovf := rfl
@[simp] theorem latch_ecode : (latch o rd a b s).blk.ecode = s.blk.ecode := rfl
@[simp] theorem latch_rangeOps : (latch o rd a b s).blk.rangeOps = s.blk.rangeOps := rfl
@[simp] theorem latch_errinfo : (latch o rd a b s).blk.errinfo = s.blk.errinfo := rfl
@[simp] theorem latch_cmdrb : (latch o rd a b s).blk.cmdrb = s.blk.cmdrb := rfl
@[simp] theorem latch_ie : (latch o rd a b s).blk.ie = s.blk.ie := rfl
@[simp] theorem latch_opc : (latch o rd a b s).blk.eng.opc = o := rfl
@[simp] theorem latch_rd : (latch o rd a b s).blk.eng.rd = rd := rfl
@[simp] theorem latch_a : (latch o rd a b s).blk.eng.a = a := rfl
@[simp] theorem latch_b : (latch o rd a b s).blk.eng.b = b := rfl

end latch

section complete
variable (t : Wide) (r : Elem) (s : State)

@[simp] theorem complete_cfg : (complete t r s).cfg = s.cfg := rfl
@[simp] theorem complete_rstN : (complete t r s).rstN = s.rstN := rfl
@[simp] theorem complete_turn : (complete t r s).turn = s.turn := rfl
@[simp] theorem complete_rdata : (complete t r s).rdata = s.rdata := rfl
@[simp] theorem complete_inbox : (complete t r s).inbox = s.inbox := rfl
@[simp] theorem complete_readF (j : FReg) :
    (complete t r s).blk.readF j = if j = s.blk.eng.rd then r else s.blk.readF j :=
  Block.readF_writeF s.blk s.blk.eng.rd j r
@[simp] theorem complete_busy : (complete t r s).blk.busy = false := rfl
@[simp] theorem complete_done : (complete t r s).blk.done = true := rfl
@[simp] theorem complete_err : (complete t r s).blk.err = s.blk.err := rfl
@[simp] theorem complete_eovf : (complete t r s).blk.eovf = s.blk.eovf := rfl
@[simp] theorem complete_ecode : (complete t r s).blk.ecode = s.blk.ecode := rfl
@[simp] theorem complete_rangeOps : (complete t r s).blk.rangeOps = s.blk.rangeOps := rfl
@[simp] theorem complete_errinfo : (complete t r s).blk.errinfo = s.blk.errinfo := rfl
@[simp] theorem complete_cmdrb : (complete t r s).blk.cmdrb = s.blk.cmdrb := rfl
@[simp] theorem complete_ie : (complete t r s).blk.ie = s.blk.ie := rfl
@[simp] theorem complete_opc : (complete t r s).blk.eng.opc = s.blk.eng.opc := rfl
@[simp] theorem complete_rd : (complete t r s).blk.eng.rd = s.blk.eng.rd := rfl
@[simp] theorem complete_a : (complete t r s).blk.eng.a = s.blk.eng.a := rfl
@[simp] theorem complete_b : (complete t r s).blk.eng.b = s.blk.eng.b := rfl

end complete

end Sys2Proof.Machine
end

