-- ==== Sys2Proof/Laws/Ops.lean ====
section
/-! SUPPORT. What acceptance, completion and a command's meaning can do, said once. -/

namespace Sys2Proof.Machine

@[simp] theorem opOf_instr (o : Op) (rd rs1 rs2 : FReg) : opOf (o.instr rd rs1 rs2) = o := by
  cases o <;> rfl

@[simp] theorem rd_instr (o : Op) (rd rs1 rs2 : FReg) : (o.instr rd rs1 rs2).rd = rd := by
  cases o <;> rfl

@[simp] theorem opOf_engine (e : Engine) : opOf e.instr = e.opc := opOf_instr _ _ _ _

@[simp] theorem rd_engine (e : Engine) : e.instr.rd = e.rd := rd_instr _ _ _ _

/-- Whether a command exists depends on its operation alone (R104). -/
theorem wf_of_opOf {i j : Instr} (h : opOf i = opOf j) (cfg : Config) : i.wf cfg = j.wf cfg := by
  cases i <;> cases j <;> first | rfl | cases h

theorem outOfRange_iff (v : Elem) : outOfRange v = true ↔ Rom.p ≤ v.toNat := by simp [outOfRange]

theorem outOfRange_false_iff (v : Elem) : outOfRange v = false ↔ v.toNat < Rom.p := by
  simp [outOfRange]

/-- The second operand's check, spelled out (R204). -/
theorem badRs2_iff (b : Block) (i : Instr) :
    badRs2 b i = true ↔ ∃ r, i.rs2 = some r ∧ Rom.p ≤ (b.readF r).toNat := by
  cases h : i.rs2 <;> simp [badRs2, h, outOfRange]

@[simp] theorem badRs2_clearDone (b : Block) (i : Instr) : badRs2 (clearDone b) i = badRs2 b i := rfl

@[simp] theorem operandB_clearDone (b : Block) (i : Instr) :
    operandB (clearDone b) i = operandB b i := by cases i <;> rfl

/-- ERRINFO for codes 4 and 5 as a number: the three fields stand side by side (R228). -/
theorem accessInfo_toNat (off : Off) (size : Nat) (d : Dir) :
    (accessInfo off size d).toNat =
      off.toNat + size % 16 * 2 ^ 12 + if d = .write then 2 ^ 16 else 0 := by
  have ho := off.isLt
  have hs : size % 16 < 16 := Nat.mod_lt _ (by decide)
  have hd : (bitWord (d == .write)).toNat = if d = .write then 1 else 0 := by cases d <;> rfl
  simp only [accessInfo, BitVec.toNat_or, BitVec.toNat_shiftLeft, BitVec.toNat_setWidth, hd,
    BitVec.toNat_ofNat]
  generalize size % 16 = m at hs
  have e1 : (m % 2 ^ 32) <<< 12 % 2 ^ 32 = m <<< 12 := by
    simp only [Nat.shiftLeft_eq]; omega
  have e2 : off.toNat % 2 ^ 32 = off.toNat := by omega
  have e3 : off.toNat ||| m <<< 12 = m <<< 12 + off.toNat := by
    rw [Nat.or_comm, Nat.shiftLeft_add_eq_or_of_lt (by omega)]
  rw [e1, e2, e3]
  split
  · have : (1 <<< 16) % 2 ^ 32 = 1 <<< 16 := by decide
    rw [this, Nat.or_comm, ← Nat.shiftLeft_add_eq_or_of_lt (by simp only [Nat.shiftLeft_eq]; omega)]
    simp only [Nat.shiftLeft_eq]; omega
  · simp [Nat.shiftLeft_eq]; omega

theorem accessInfo_eq (off : Off) (size : Nat) (d : Dir) : accessInfo off size d =
    BitVec.ofNat 32 (off.toNat + size % 16 * 2 ^ 12 + if d = .write then 2 ^ 16 else 0) := by
  rw [← accessInfo_toNat, BitVec.ofNat_toNat, BitVec.setWidth_eq]

/-! ## Acceptance (R202), case by case -/

/-- Some operand the command reads is out of range (R223). -/
def badOperand (b : Block) (i : Instr) : Bool := outOfRange (b.readF i.rs1) || badRs2 b i

/-- Legal operands, spelled out (R204). -/
theorem badOperand_false_iff (b : Block) (i : Instr) :
    badOperand b i = false ↔
      (b.readF i.rs1).toNat < Rom.p ∧ ∀ r, i.rs2 = some r → (b.readF r).toNat < Rom.p := by
  rw [badOperand, Bool.or_eq_false_iff, outOfRange_false_iff]
  cases h : i.rs2 <;> simp [badRs2, h, outOfRange_false_iff]

/-- The state in which an idle CMD write is decoded: DONE has been cleared (R202). -/
def doneCleared (s : State) : State := { s with blk := clearDone s.blk }

/-- BUSY = 1: the word is dropped (R225). -/
theorem accept_busy {i : Instr} {s : State} (h : s.blk.busy = true) :
    accept i s = { s with blk := raiseError .busyCmd s.blk.cmdrb 0 s.blk } := by
  simp [accept, whenIdle, h]

/-- BUSY = 0 and the block has no such command (R222). -/
theorem accept_absent {i : Instr} {s : State} (h : s.blk.busy = false) (hw : i.wf s.cfg = false) :
    accept i s = refuseIllegal (doneCleared s) := by
  simp [accept, whenIdle, h, hw, doneCleared]

/-- BUSY = 0, the command exists, an operand is out of range (R223). -/
theorem accept_range {i : Instr} {s : State} (h : s.blk.busy = false) (hw : i.wf s.cfg = true)
    (hb : badOperand s.blk i = true) :
    accept i s = refuseRange (outOfRange (s.blk.readF i.rs1)) (badRs2 s.blk i) (doneCleared s) := by
  unfold badOperand at hb
  simp [accept, whenIdle, h, hw, doneCleared, hb, -Bool.or_eq_true]

/-- BUSY = 0, the command exists, its operands are legal: it is latched (R202). -/
theorem accept_ok {i : Instr} {s : State} (h : s.blk.busy = false) (hw : i.wf s.cfg = true)
    (hb : badOperand s.blk i = false) :
    accept i s =
      latch (opOf i) i.rd (s.blk.readF i.rs1) (operandB s.blk i) (doneCleared s) := by
  unfold badOperand at hb
  simp [accept, whenIdle, h, hw, doneCleared, hb, -Bool.or_eq_true, -Bool.or_eq_false_iff]

/-- The four outcomes of acceptance, in the order of its checks (R234). -/
theorem accept_cases (i : Instr) (s : State) :
    (s.blk.busy = true ∧
      accept i s = { s with blk := raiseError .busyCmd s.blk.cmdrb 0 s.blk }) ∨
    (s.blk.busy = false ∧ i.wf s.cfg = false ∧ accept i s = refuseIllegal (doneCleared s)) ∨
    (s.blk.busy = false ∧ i.wf s.cfg = true ∧ badOperand s.blk i = true ∧
      accept i s =
        refuseRange (outOfRange (s.blk.readF i.rs1)) (badRs2 s.blk i) (doneCleared s)) ∨
    (s.blk.busy = false ∧ i.wf s.cfg = true ∧ badOperand s.blk i = false ∧
      accept i s =
        latch (opOf i) i.rd (s.blk.readF i.rs1) (operandB s.blk i) (doneCleared s)) := by
  cases h : s.blk.busy
  · cases hw : i.wf s.cfg
    · exact .inr (.inl ⟨rfl, rfl, accept_absent h hw⟩)
    · cases hb : badOperand s.blk i
      · exact .inr (.inr (.inr ⟨rfl, rfl, rfl, accept_ok h hw hb⟩))
      · exact .inr (.inr (.inl ⟨rfl, rfl, rfl, accept_range h hw hb⟩))
  · exact .inl ⟨rfl, accept_busy h⟩

/-! ## The meaning of every command -/

/-- What a command puts through ENG.T. -/
def scratchIn (o : Op) (e : Engine) : Wide :=
  match o with
  | .enc | .dec | .mul => product e.a e.b
  | .sqr => product e.a e.a
  | .add | .sub | .neg | .hlv | .dbl | .tpl => e.t

/-- Every arm of `exec` is `command` on its own result (R207). -/
theorem exec_eq_command (i : Instr) (s : State) :
    exec i s = command i (fun e => (scratchIn (opOf i) e, result (opOf i) e.a e.b)) s := by
  cases i <;> rfl

/-- In a HOST step a command is accepted, or nothing happens while `rst_n` is asserted. -/
theorem exec_host (i : Instr) {s : State} (h : s.turn = .host) :
    exec i s = .next (if s.rstN then accept i s else s) := by
  rw [exec_eq_command]; simp [command, h]

/-- In an ENGINE step a command is completed where the step is enabled (R205). -/
theorem exec_engine (i : Instr) {s : State} (h : s.turn = .engine) :
    exec i s = .next (if engineEnabled s then
      complete (scratchIn (opOf i) s.blk.eng) (result (opOf i) s.blk.eng.a s.blk.eng.b) s else s) := by
  rw [exec_eq_command]; simp [command, h]

/-- No command faults or is refused (R209, R241). -/
theorem exec_next (i : Instr) (s : State) : ∃ t, exec i s = .next t := by
  cases h : s.turn
  · exact ⟨_, exec_host i h⟩
  · exact ⟨_, exec_engine i h⟩

end Sys2Proof.Machine
end

