-- ==== Sys2Proof/Laws/PerInstr.lean ====
section
/-! SUPPORT. The per-instruction family of LAWS.json: the shape of every command's encoding. -/

namespace Sys2Proof.Laws.EncodeShape

/-- The encoding of a command has its opcode in bits [3:0], its registers in bits [6:4], [10:8] and [14:12] (0 where
it reads no rs2), and 0 in the reserved bits 7, 11 and 31:15 (R101, R105, R110). -/
def Statement (i : Instr) : Prop :=
  opcodeField (encode i) = i.opcode ∧ regField (encode i) 4 = i.rd ∧ regField (encode i) 8 = i.rs1 ∧
    regField (encode i) 12 = i.rs2.getD 0 ∧ reservedClear (encode i) = true

theorem enc (rd rs1 : FReg) : Statement (.enc rd rs1) := by unfold Statement; revert rd rs1; decide

theorem dec (rd rs1 : FReg) : Statement (.dec rd rs1) := by unfold Statement; revert rd rs1; decide

theorem mul (rd rs1 rs2 : FReg) : Statement (.mul rd rs1 rs2) := by unfold Statement; revert rd rs1 rs2; decide

theorem sqr (rd rs1 : FReg) : Statement (.sqr rd rs1) := by unfold Statement; revert rd rs1; decide

theorem add (rd rs1 rs2 : FReg) : Statement (.add rd rs1 rs2) := by unfold Statement; revert rd rs1 rs2; decide

theorem sub (rd rs1 rs2 : FReg) : Statement (.sub rd rs1 rs2) := by unfold Statement; revert rd rs1 rs2; decide

theorem neg (rd rs1 : FReg) : Statement (.neg rd rs1) := by unfold Statement; revert rd rs1; decide

theorem hlv (rd rs1 : FReg) : Statement (.hlv rd rs1) := by unfold Statement; revert rd rs1; decide

theorem dbl (rd rs1 : FReg) : Statement (.dbl rd rs1) := by unfold Statement; revert rd rs1; decide

theorem tpl (rd rs1 : FReg) : Statement (.tpl rd rs1) := by unfold Statement; revert rd rs1; decide

end Sys2Proof.Laws.EncodeShape
end

