-- ==== Sys2Proof/Laws/Step.lean ====
section
/-! SUPPORT. What one step can do, said once: the effect of its event, the block after it, and how the predicates
of Safety.lean read off that effect. -/

namespace Sys2Proof.Machine

/-! ## Addresses and forms -/

@[simp] theorem offsetOf_addrOf (cfg : Config) (off : Off) : offsetOf cfg (addrOf cfg off) = some off := by
  have h := off.isLt
  have e : cfg.base + off.toNat - cfg.base = off.toNat := by omega
  simp only [offsetOf, addrOf, e, BitVec.ofNat_toNat, BitVec.setWidth_eq]
  rw [if_pos ⟨by omega, by omega⟩]

/-- Well formed: size 4, offset a multiple of 4 (R75). -/
theorem wellFormed_iff (off : Off) (size : Nat) :
    wellFormed off size = true ↔ size = 4 ∧ off.toNat % 4 = 0 := by
  have e : off.extractLsb' 0 2 = 0#2 ↔ off.toNat % 4 = 0 := by
    rw [← BitVec.toNat_inj]; simp
  simp only [wellFormed, Bool.and_eq_true, beq_iff_eq, e]

@[simp] theorem fieldOff_toNat (i : FReg) (k : WordIdx) :
    (fieldOff i k).toNat = 0x100 + 0x20 * i.val + 4 * k.val := by
  have := i.isLt; have := k.isLt
  simp only [fieldOff, BitVec.toNat_ofNat]; omega

@[simp] theorem locate_fieldOff (i : FReg) (k : WordIdx) : locate (fieldOff i k) = .field i k := by
  revert i k; decide

@[simp] theorem locate_ctrl : locate 0x010#12 = .ctrl := by decide
@[simp] theorem locate_status : locate 0x014#12 = .status := by decide
@[simp] theorem locate_cmd : locate 0x018#12 = .cmd := by decide

/-- STATUS is at 0x014 alone (R72). -/
theorem locate_eq_status {off : Off} (h : locate off = .status) : off = 0x014#12 := by
  unfold locate at h
  repeat' split at h
  all_goals first
    | exact BitVec.eq_of_toNat_eq (by assumption)
    | cases h

/-- CMD is at 0x018 alone (R72). -/
theorem locate_eq_cmd {off : Off} (h : locate off = .cmd) : off = 0x018#12 := by
  unfold locate at h
  repeat' split at h
  all_goals first
    | exact BitVec.eq_of_toNat_eq (by assumption)
    | cases h

/-- CTRL is at 0x010 alone (R72). -/
theorem locate_eq_ctrl {off : Off} (h : locate off = .ctrl) : off = 0x010#12 := by
  unfold locate at h
  repeat' split at h
  all_goals first
    | exact BitVec.eq_of_toNat_eq (by assumption)
    | cases h

/-- The reserved offsets (R72). -/
theorem locate_reserved {off : Off}
    (h : (0x060 ≤ off.toNat ∧ off.toNat ≤ 0x0FC) ∨ 0x200 ≤ off.toNat) : locate off = .reserved := by
  rcases h with ⟨_, _⟩ | _ <;>
  · unfold locate
    repeat rw [if_neg (by omega)]

/-- The offsets of the field registers (R73). -/
theorem locate_field {off : Off} (h1 : 0x100 ≤ off.toNat) (h2 : off.toNat < 0x200) :
    locate off = .field (fieldNo off) (wordNo off) := by
  unfold locate
  repeat rw [if_neg (by omega)]
  rw [if_pos (by omega)]

/-! ## The effect of an event -/

/-- The nine things an event can do to the block. -/
inductive Effect where
  | quiet
  | bad (info : Word)
  | ctrl (v : Word)
  | status (v : Word)
  | field (i : FReg) (k : WordIdx) (v : Word)
  | cmd (c : Word)
  | complete
  | pin (level : Bool)
  deriving DecidableEq, Repr

/-- The effect of a well-formed write, by location. -/
def writeEffect (v : Word) : Loc → Effect
  | .ctrl => .ctrl v
  | .status => .status v
  | .cmd => .cmd v
  | .field i k => .field i k v
  | .id | .bitlen | .caps | .nregs | .errinfo | .mod _ | .r2 _ | .reserved => .quiet

/-- The effect of an event in a state. -/
def effect (s : State) : Event → Effect
  | .engine => if engineEnabled s then .complete else .quiet
  | .rstN level => .pin level
  | .host t =>
    match offsetOf s.cfg t.addr with
    | none => .quiet
    | some off =>
      if s.rstN then
        if wellFormed off t.size then
          match t.dir with
          | .read => .quiet
          | .write => writeEffect t.data (locate off)
        else .bad (accessInfo off t.size t.dir)
      else .quiet

/-- The state in which the word `c` written to CMD is decoded. -/
def cmdStored (c : Word) (s : State) : State :=
  { s with turn := .host, blk := { s.blk with cmdrb := c } }

/-- The block after a CMD write (R202). -/
def afterCmd (c : Word) (s : State) : Block :=
  match decode s.cfg c with
  | some i => (accept i (cmdStored c s)).blk
  | none => (whenIdle refuseIllegal (cmdStored c s)).blk

/-- The block after an effect. -/
def Effect.after (s : State) : Effect → Block
  | .quiet => s.blk
  | .bad info => raiseError .badAccess info 0 s.blk
  | .ctrl v => ctrlWrite v s.blk
  | .status v => statusWrite v s.blk
  | .field i k v => fieldWrite i k v s.blk
  | .cmd c => afterCmd c s
  | .complete =>
    (Machine.complete (scratchIn s.blk.eng.opc s.blk.eng)
      (result s.blk.eng.opc s.blk.eng.a s.blk.eng.b) s).blk
  | .pin level => if level then s.blk else Block.reset

/-- The level of `rst_n` after an effect. -/
def Effect.rstN (s : State) : Effect → Bool
  | .pin level => level
  | .quiet | .bad _ | .ctrl _ | .status _ | .field _ _ _ | .cmd _ | .complete => s.rstN

@[simp] theorem accept_cfg (i : Instr) (s : State) : (accept i s).cfg = s.cfg := by
  rcases accept_cases i s with ⟨_, h⟩ | ⟨_, _, h⟩ | ⟨_, _, _, h⟩ | ⟨_, _, _, h⟩ <;> rw [h] <;> rfl
@[simp] theorem accept_rstN (i : Instr) (s : State) : (accept i s).rstN = s.rstN := by
  rcases accept_cases i s with ⟨_, h⟩ | ⟨_, _, h⟩ | ⟨_, _, _, h⟩ | ⟨_, _, _, h⟩ <;> rw [h] <;> rfl
@[simp] theorem accept_inbox (i : Instr) (s : State) : (accept i s).inbox = s.inbox := by
  rcases accept_cases i s with ⟨_, h⟩ | ⟨_, _, h⟩ | ⟨_, _, _, h⟩ | ⟨_, _, _, h⟩ <;> rw [h] <;> rfl
@[simp] theorem accept_rdata (i : Instr) (s : State) : (accept i s).rdata = s.rdata := by
  rcases accept_cases i s with ⟨_, h⟩ | ⟨_, _, h⟩ | ⟨_, _, _, h⟩ | ⟨_, _, _, h⟩ <;> rw [h] <;> rfl

/-- The block after acceptance depends on the block, the configuration and the free-value counter alone. -/
theorem accept_blk_congr {i : Instr} {s t : State} (hb : s.blk = t.blk) (hc : s.cfg = t.cfg)
    (hn : s.freeCount = t.freeCount) : (accept i s).blk = (accept i t).blk := by
  cases s; cases t; simp only at hb hc hn; subst hb hc hn
  simp only [accept, whenIdle, refuseIllegal, refuseRange, latch]
  split <;> (try rfl)
  split <;> (try rfl)
  split <;> rfl

/-- What a HOST write does (R192). -/
theorem hostWrite_effect (off : Off) (size : Nat) (v : Word) (s : State) (hr : s.rstN = true)
    (ht : s.turn = .host) :
    ∃ t, hostWrite off size v s = .next t ∧ t.cfg = s.cfg ∧ t.rstN = s.rstN ∧ t.inbox = s.inbox ∧
      t.rdata = s.rdata ∧
      t.blk = (if wellFormed off size then writeEffect v (locate off)
        else .bad (accessInfo off size .write)).after s := by
  unfold hostWrite
  cases hw : wellFormed off size
  · exact ⟨_, rfl, rfl, rfl, rfl, rfl, rfl⟩
  · cases hl : locate off <;> simp only [if_true, writeEffect, Effect.after]
    case cmd =>
      have e : ({ s with blk := { s.blk with cmdrb := v } } : State) = cmdStored v s := by
        simp [cmdStored, ht]
      unfold cmdWrite afterCmd
      simp only [e]
      cases hd : decode s.cfg v with
      | none =>
        refine ⟨_, rfl, ?_, ?_, ?_, ?_, rfl⟩ <;> unfold whenIdle <;> split <;> rfl
      | some i =>
        simp only
        rw [exec_host i (s := cmdStored v s) rfl, if_pos (show (cmdStored v s).rstN = true from hr)]
        exact ⟨_, rfl, by simp [cmdStored], by simp [cmdStored], by simp [cmdStored],
          by simp [cmdStored], rfl⟩
    all_goals exact ⟨_, rfl, rfl, rfl, rfl, rfl, rfl⟩

/-- The bookkeeping a step does before its event is performed. -/
def popped (s : State) : State := { s with inbox := (nextEvent s.inbox).2, rdata := none }

theorem step_eq (s : State) : step s = perform (nextEvent s.inbox).1 (popped s) := rfl

@[simp] theorem step_withEvents_cons (e : Event) (rest : List Event) (s : State) :
    step (withEvents (e :: rest) s) = perform e { s with inbox := rest, rdata := none } := rfl

@[simp] theorem step_withEvents_nil (s : State) :
    step (withEvents [] s) = perform .engine { s with inbox := [], rdata := none } := rfl

/-- The effect of an event depends on the configuration, the block and the pin alone. -/
theorem effect_congr {s t : State} (hc : s.cfg = t.cfg) (hb : s.blk = t.blk) (hr : s.rstN = t.rstN)
    (e : Event) : effect s e = effect t e := by
  cases e with
  | engine =>
    have he : engineEnabled s = engineEnabled t := by simp only [engineEnabled, hb, hr]
    simp only [effect, he]
  | rstN l => rfl
  | host x => simp only [effect, hc, hr]

/-- The block after an effect depends on the configuration, the block and the free-value counter alone. -/
theorem after_congr {s t : State} (hc : s.cfg = t.cfg) (hb : s.blk = t.blk)
    (hn : s.freeCount = t.freeCount) (x : Effect) : x.after s = x.after t := by
  obtain ⟨c, b, r, u, d, ib, n⟩ := s
  obtain ⟨c', b', r', u', d', ib', n'⟩ := t
  simp only at hc hb hn; subst hc hb hn
  cases x with
  | cmd c =>
    simp only [Effect.after, afterCmd]
    split
    · exact accept_blk_congr rfl rfl rfl
    · simp only [whenIdle, cmdStored]; by_cases h : b.busy = true <;> simp [h, refuseIllegal]
  | _ => rfl

/-- What performing an event does to the state (R85): the one inversion lemma of a step. -/
theorem perform_effect (e : Event) (s : State) :
    ∃ t, perform e s = .next t ∧ t.cfg = s.cfg ∧ t.inbox = s.inbox ∧
      t.rstN = (effect s e).rstN s ∧ t.blk = (effect s e).after s := by
  cases e with
  | engine =>
    refine ⟨_, exec_engine _ (s := { s with turn := .engine }) rfl, ?_⟩
    have e1 : engineEnabled { s with turn := .engine } = engineEnabled s := rfl
    simp only [effect, opOf_engine, e1]
    by_cases h : engineEnabled s = true
    · rw [if_pos h, if_pos h]; exact ⟨rfl, rfl, rfl, rfl⟩
    · rw [if_neg h, if_neg h]; exact ⟨rfl, rfl, rfl, rfl⟩
  | rstN level =>
    refine ⟨_, rfl, ?_⟩
    cases level <;> exact ⟨rfl, rfl, rfl, rfl⟩
  | host x =>
    simp only [perform, hostStep, effect]
    cases ho : offsetOf s.cfg x.addr with
    | none => exact ⟨_, rfl, rfl, rfl, rfl, rfl⟩
    | some off =>
      simp only
      by_cases hr : s.rstN = true
      · simp only [if_pos hr]
        cases hd : x.dir with
        | read =>
          refine ⟨_, rfl, ?_⟩
          unfold hostRead
          by_cases hw : wellFormed off x.size = true
          · rw [if_pos hw, if_pos hw]; exact ⟨rfl, rfl, rfl, rfl⟩
          · rw [if_neg hw, if_neg hw]; exact ⟨rfl, rfl, rfl, rfl⟩
        | write =>
          obtain ⟨t, h1, h2, h3, h4, _, h6⟩ :=
            hostWrite_effect off x.size x.data { s with turn := .host } hr rfl
          refine ⟨t, h1, h2, h4, ?_, ?_⟩
          · rw [h3]
            by_cases hw : wellFormed off x.size = true
            · simp only [if_pos hw]; cases locate off <;> rfl
            · simp only [if_neg hw]; rfl
          · rw [h6]
            exact after_congr rfl rfl rfl _
      · simp only [if_neg hr]
        refine ⟨_, rfl, ?_⟩
        unfold hostInReset
        cases x.dir <;> exact ⟨rfl, rfl, rfl, rfl⟩

theorem rstN_congr {s t : State} (h : s.rstN = t.rstN) (x : Effect) : x.rstN s = x.rstN t := by
  cases x <;> first | exact h | rfl

/-- What a step does to the state. -/
theorem step_effect {s t : State} (h : step s = .next t) :
    t.cfg = s.cfg ∧ t.inbox = (nextEvent s.inbox).2 ∧
      t.rstN = (effect s (nextEvent s.inbox).1).rstN s ∧
      t.blk = (effect s (nextEvent s.inbox).1).after s := by
  obtain ⟨u, hu, h1, h2, h3, h4⟩ := perform_effect (nextEvent s.inbox).1 (popped s)
  rw [step_eq, hu] at h
  cases h
  have e1 := effect_congr (s := popped s) (t := s) rfl rfl rfl (nextEvent s.inbox).1
  rw [e1] at h3 h4
  exact ⟨h1, h2, h3.trans (rstN_congr rfl _), h4.trans (after_congr (s := popped s) (t := s) rfl rfl rfl _)⟩

/-- Every step answers a next state (R209). -/
theorem step_next (s : State) : ∃ t, step s = .next t := by
  obtain ⟨t, ht, _⟩ := perform_effect (nextEvent s.inbox).1 (popped s)
  exact ⟨t, ht⟩

/-- A step whose next event is known. -/
theorem step_cons (e : Event) (rest : List Event) (s : State) :
    ∃ t, step (withEvents (e :: rest) s) = .next t ∧ t.cfg = s.cfg ∧ t.inbox = rest ∧
      t.rstN = (effect s e).rstN s ∧ t.blk = (effect s e).after s := by
  obtain ⟨t, ht, h1, h2, h3, h4⟩ := perform_effect e { s with inbox := rest, rdata := none }
  have e1 := effect_congr (s := { s with inbox := rest, rdata := none }) (t := s) rfl rfl rfl e
  rw [e1] at h3 h4
  exact ⟨t, ht, h1, h2, h3.trans (rstN_congr rfl _), h4.trans
    (after_congr (s := { s with inbox := rest, rdata := none }) (t := s) rfl rfl rfl _)⟩

/-- The effect of a well-formed write at an offset. -/
theorem effect_wr {s : State} (hr : s.rstN = true) (off : Off) (v : Word) (ha : off.toNat % 4 = 0) :
    effect s (wr s.cfg off v) = writeEffect v (locate off) := by
  have hw : wellFormed off 4 = true := (wellFormed_iff off 4).2 ⟨rfl, ha⟩
  simp [effect, wr, hr, hw]

/-- The effect of a well-formed read: none (R83). -/
theorem effect_rd {s : State} (off : Off) (ha : off.toNat % 4 = 0) :
    effect s (rd s.cfg off) = .quiet := by
  have hw : wellFormed off 4 = true := (wellFormed_iff off 4).2 ⟨rfl, ha⟩
  simp [effect, rd, hw]

/-- A read step of a well-formed access returns the word at the offset (R191). -/
theorem step_rd {s : State} (hr : s.rstN = true) (off : Off) (rest : List Event)
    (ha : off.toNat % 4 = 0) :
    step (withEvents (rd s.cfg off :: rest) s) =
      .next { s with inbox := rest, turn := .host, rdata := some (readAt s off) } := by
  have hw : wellFormed off 4 = true := (wellFormed_iff off 4).2 ⟨rfl, ha⟩
  simp [rd, perform, hostStep, hr, hostRead, hw, readAt]

/-! ## The block after a CMD write, case by case (R202, R234) -/

/-- A command that the decoder gives exists in the configuration (R104, R106). -/
theorem wf_of_decode {cfg : Config} {c : Word} {i : Instr} (h : decode cfg c = some i) :
    i.wf cfg = true := by
  unfold decode at h
  split at h
  · next hc =>
    simp only [Bool.and_eq_true] at hc
    have h2 := hc.2
    revert h h2
    generalize opcodeField c = o
    generalize regField c 4 = d
    generalize regField c 8 = a
    generalize regField c 12 = b
    intro h h2
    unfold ofOpcode at h
    split at h <;> cases h <;> (try rfl)
    all_goals
      next ho =>
        simp only [ho] at h2
        cases he : cfg.extOps
        · simp [caps, he] at h2
        · simp [Instr.wf, he]
  · cases h

theorem afterCmd_busy {c : Word} {s : State} (h : s.blk.busy = true) :
    afterCmd c s = raiseError .busyCmd c 0 { s.blk with cmdrb := c } := by
  unfold afterCmd
  split
  · rw [accept_busy (s := cmdStored c s) h]; rfl
  · unfold whenIdle; rw [if_pos (show (cmdStored c s).blk.busy = true from h)]; rfl

theorem afterCmd_illegal {c : Word} {s : State} (h : s.blk.busy = false)
    (hd : decode s.cfg c = none) :
    afterCmd c s = raiseError .illegalCmd c 0 (clearDone { s.blk with cmdrb := c }) := by
  have hb : (cmdStored c s).blk.busy = false := h
  unfold afterCmd whenIdle
  rw [hd]
  simp only [hb]; rfl

theorem afterCmd_range {c : Word} {s : State} {i : Instr} (h : s.blk.busy = false)
    (hd : decode s.cfg c = some i) (hb : badOperand s.blk i = true) :
    afterCmd c s = raiseError .range c
      (rangeBits (outOfRange (s.blk.readF i.rs1)) (badRs2 s.blk i))
      (clearDone { s.blk with cmdrb := c }) := by
  unfold afterCmd
  rw [hd]
  simp only
  rw [accept_range (s := cmdStored c s) h (wf_of_decode hd) hb]
  rfl

theorem afterCmd_ok {c : Word} {s : State} {i : Instr} (h : s.blk.busy = false)
    (hd : decode s.cfg c = some i) (hb : badOperand s.blk i = false) :
    afterCmd c s = { s.blk with
      cmdrb := c
      done := false
      busy := true
      eng := ⟨opOf i, i.rd, s.blk.readF i.rs1, operandB s.blk i,
        Config.scratch s.blk.eng.t s.freeCount⟩ } := by
  have e : operandB (cmdStored c s).blk i = operandB s.blk i := by cases i <;> rfl
  unfold afterCmd
  rw [hd]
  simp only
  rw [accept_ok (s := cmdStored c s) h (wf_of_decode hd) hb, e]
  rfl

theorem operandsLegal_eq (b : Block) (i : Instr) : operandsLegal b i = !badOperand b i := by
  simp [operandsLegal, badOperand]

/-! ## The predicates of Safety.lean, read off the effect -/

theorem writeEffect_ne_complete (v : Word) (l : Loc) : writeEffect v l ≠ .complete := by
  cases l <;> simp [writeEffect]

theorem writeEffect_ne_pin (v : Word) (l : Loc) (b : Bool) : writeEffect v l ≠ .pin b := by
  cases l <;> simp [writeEffect]

theorem writeEffect_ne_bad (v : Word) (l : Loc) (i : Word) : writeEffect v l ≠ .bad i := by
  cases l <;> simp [writeEffect]

/-- No transaction completes a command (R205). -/
theorem effect_host_ne_complete (s : State) (x : Txn) : effect s (.host x) ≠ .complete := by
  simp only [effect]
  repeat' split
  all_goals first
    | (simp; done)
    | exact writeEffect_ne_complete _ _

theorem completesCommand_eq (s : State) (e : Event) :
    completesCommand s e = true ↔ effect s e = .complete := by
  cases e with
  | engine => simp [completesCommand, effect]
  | rstN l => simp [completesCommand, effect]
  | host x => simp [completesCommand, effect_host_ne_complete]

/-- A well-formed write to one of the four writable kinds of location is its effect. -/
theorem writesTo_eq {l : Loc} {s : State} {e : Event} {v : Word} (h : writesTo l s e = some v) :
    effect s e = writeEffect v l := by
  cases e with
  | engine => simp [writesTo] at h
  | rstN _ => simp [writesTo] at h
  | host x =>
    simp only [writesTo] at h
    simp only [effect]
    cases ho : offsetOf s.cfg x.addr with
    | none => simp [ho] at h
    | some off =>
      simp only [ho] at h ⊢
      split at h
      · next hc =>
        simp only [Bool.and_eq_true, beq_iff_eq] at hc
        obtain ⟨⟨⟨h1, h2⟩, h3⟩, h4⟩ := hc
        cases h
        simp [h1, h2, h3, h4]
      · cases h

/-- The converse: such an effect comes from such a write. -/
theorem writesTo_of_effect {l : Loc} {s : State} {e : Event} {v : Word}
    (hl : writeEffect v l ≠ .quiet) (h : effect s e = writeEffect v l) :
    writesTo l s e = some v := by
  cases e with
  | engine =>
    simp only [effect] at h
    split at h
    · cases l <;> simp [writeEffect] at h
    · exact absurd h.symm hl
  | rstN _ => cases l <;> simp [writeEffect, effect] at h
  | host x =>
    simp only [effect] at h
    simp only [writesTo]
    cases ho : offsetOf s.cfg x.addr with
    | none => rw [ho] at h; exact absurd h.symm hl
    | some off =>
      simp only [ho] at h ⊢
      by_cases hr : s.rstN = true
      · by_cases hw : wellFormed off x.size = true
        · cases hd : x.dir with
          | read => simp only [if_pos hr, if_pos hw, hd] at h; exact absurd h.symm hl
          | write =>
            simp only [if_pos hr, if_pos hw, hd] at h
            have : locate off = l ∧ x.data = v := by
              revert h hl
              cases locate off <;> cases l <;> simp [writeEffect] <;> (intros; simp_all)
            simp [hr, hw, this.1, this.2]
        · simp only [if_pos hr, if_neg hw] at h
          cases l <;> simp [writeEffect] at h
      · simp only [if_neg hr] at h; exact absurd h.symm hl

/-- A soft reset is a CTRL write with bit 1 (R260). -/
theorem resetsNow_host (s : State) (x : Txn) :
    resetsNow s (.host x) = true ↔ ∃ v, effect s (.host x) = .ctrl v ∧ v.getLsbD 1 = true := by
  constructor
  · intro h
    simp only [resetsNow, softResets, Bool.and_eq_true] at h
    obtain ⟨hr, h⟩ := h
    cases ho : offsetOf s.cfg x.addr with
    | none => simp [ho] at h
    | some off =>
      simp only [ho, Bool.and_eq_true, beq_iff_eq] at h
      obtain ⟨⟨⟨h1, h2⟩, h3⟩, h4⟩ := h
      exact ⟨x.data, by simp [effect, ho, hr, h1, h2, h3, writeEffect], h4⟩
  · rintro ⟨v, h, hv⟩
    have hw : writesTo .ctrl s (.host x) = some v := writesTo_of_effect (by simp [writeEffect]) h
    simp only [writesTo] at hw
    simp only [resetsNow, softResets]
    cases ho : offsetOf s.cfg x.addr with
    | none => simp [ho] at hw
    | some off =>
      simp only [ho] at hw ⊢
      split at hw
      · next hc =>
        simp only [Bool.and_eq_true, beq_iff_eq] at hc
        cases hw
        simp [hc.1.1.1, hc.1.1.2, hc.1.2, hc.2, hv]
      · cases hw

/-- An event resets the block exactly when its effect is the pin going low or a CTRL write with bit 1 = 1. -/
theorem resetsNow_iff (s : State) (e : Event) :
    resetsNow s e = true ↔
      effect s e = .pin false ∨ ∃ v, effect s e = .ctrl v ∧ v.getLsbD 1 = true := by
  cases e with
  | engine =>
    simp only [resetsNow, effect]
    split <;> simp
  | rstN l => cases l <;> simp [resetsNow, effect]
  | host x =>
    rw [resetsNow_host]
    constructor
    · exact .inr
    · rintro (h | h)
      · exfalso
        revert h
        simp only [effect]
        repeat' split
        all_goals first
          | (simp; done)
          | exact writeEffect_ne_pin _ _ _
      · exact h

/-- The error record is cleared exactly by these effects (R231). -/
theorem clearsError_iff (s : State) (e : Event) :
    clearsError s e = true ↔ effect s e = .pin false ∨
      (∃ v, effect s e = .ctrl v ∧ v.getLsbD 1 = true) ∨
      ∃ v, effect s e = .status v ∧ v.getLsbD 2 = true := by
  unfold clearsError
  rw [Bool.or_eq_true, resetsNow_iff, or_assoc]
  refine or_congr_right (or_congr_right ?_)
  constructor
  · intro h
    split at h
    · next v hv => exact ⟨v, writesTo_eq hv, h⟩
    · cases h
  · rintro ⟨v, h, h2⟩
    rw [writesTo_of_effect (l := .status) (v := v) (by simp [writeEffect]) h]; exact h2

/-- DONE is cleared exactly by these effects (R40). -/
theorem clearsDone_iff (s : State) (e : Event) :
    clearsDone s e = true ↔ effect s e = .pin false ∨
      (∃ v, effect s e = .ctrl v ∧ v.getLsbD 1 = true) ∨
      (∃ c, effect s e = .cmd c ∧ s.blk.busy = false) ∨
      ∃ v, effect s e = .status v ∧ v.getLsbD 1 = true := by
  unfold clearsDone
  rw [Bool.or_eq_true, Bool.or_eq_true, resetsNow_iff, or_assoc, or_assoc]
  refine or_congr_right (or_congr_right (or_congr ?_ ?_))
  · rw [Bool.and_eq_true, Option.isSome_iff_exists]
    constructor
    · rintro ⟨⟨c, hc⟩, h⟩; exact ⟨c, writesTo_eq hc, by simpa using h⟩
    · rintro ⟨c, hc, h⟩
      exact ⟨⟨c, writesTo_of_effect (l := .cmd) (by simp [writeEffect]) hc⟩, by simpa using h⟩
  · constructor
    · intro h
      split at h
      · next v hv => exact ⟨v, writesTo_eq hv, h⟩
      · cases h
    · rintro ⟨v, h, h2⟩
      rw [writesTo_of_effect (l := .status) (v := v) (by simp [writeEffect]) h]; exact h2

/-- A command is accepted exactly by a CMD write of a legal word on legal operands while BUSY = 0 (R202). -/
theorem acceptsCommand_iff (s : State) (e : Event) :
    acceptsCommand s e = true ↔ ∃ c i, effect s e = .cmd c ∧ s.blk.busy = false ∧
      decode s.cfg c = some i ∧ badOperand s.blk i = false := by
  unfold acceptsCommand
  constructor
  · intro h
    split at h
    · next c hc =>
      rw [Bool.and_eq_true] at h
      obtain ⟨h1, h2⟩ := h
      split at h2
      · next i hi =>
        exact ⟨c, i, writesTo_eq hc, by simpa using h1, hi, by simpa [operandsLegal_eq] using h2⟩
      · cases h2
    · cases h
  · rintro ⟨c, i, h1, h2, h3, h4⟩
    rw [writesTo_of_effect (l := .cmd) (v := c) (by simp [writeEffect]) h1]
    simp [h2, h3, operandsLegal_eq, h4]

/-- The four outcomes of a CMD write, in the order of its checks (R234). -/
theorem afterCmd_cases (c : Word) (s : State) :
    (s.blk.busy = true ∧ afterCmd c s = raiseError .busyCmd c 0 { s.blk with cmdrb := c }) ∨
    (s.blk.busy = false ∧ decode s.cfg c = none ∧
      afterCmd c s = raiseError .illegalCmd c 0 (clearDone { s.blk with cmdrb := c })) ∨
    (∃ i, s.blk.busy = false ∧ decode s.cfg c = some i ∧ badOperand s.blk i = true ∧
      afterCmd c s = raiseError .range c
        (rangeBits (outOfRange (s.blk.readF i.rs1)) (badRs2 s.blk i))
        (clearDone { s.blk with cmdrb := c })) ∨
    (∃ i, s.blk.busy = false ∧ decode s.cfg c = some i ∧ badOperand s.blk i = false ∧
      afterCmd c s = { s.blk with
        cmdrb := c
        done := false
        busy := true
        eng := ⟨opOf i, i.rd, s.blk.readF i.rs1, operandB s.blk i,
          Config.scratch s.blk.eng.t s.freeCount⟩ }) := by
  cases hb : s.blk.busy
  · cases hd : decode s.cfg c with
    | none => exact .inr (.inl ⟨rfl, rfl, afterCmd_illegal hb hd⟩)
    | some i =>
      cases hl : badOperand s.blk i
      · exact .inr (.inr (.inr ⟨i, rfl, rfl, hl, afterCmd_ok hb hd hl⟩))
      · exact .inr (.inr (.inl ⟨i, rfl, rfl, hl, afterCmd_range hb hd hl⟩))
  · exact .inl ⟨rfl, afterCmd_busy hb⟩

/-- Two blocks look alike exactly when they agree on all but ENG, and on ENG's four latched fields while BUSY = 1
(R46). -/
theorem visible_eq_iff {b c : Block} :
    b.visible = c.visible ↔ b.f = c.f ∧ b.ie = c.ie ∧ b.busy = c.busy ∧ b.done = c.done ∧ b.err = c.err ∧
      b.eovf = c.eovf ∧ b.ecode = c.ecode ∧ b.rangeOps = c.rangeOps ∧ b.cmdrb = c.cmdrb ∧
      b.errinfo = c.errinfo ∧ (b.busy = true →
        b.eng.opc = c.eng.opc ∧ b.eng.rd = c.eng.rd ∧ b.eng.a = c.eng.a ∧ b.eng.b = c.eng.b) := by
  simp only [Block.visible, Block.mk.injEq]
  constructor
  · rintro ⟨h1, h2, h3, h4, h5, h6, h7, h8, h9, h10, h11⟩
    refine ⟨h1, h2, h3, h4, h5, h6, h7, h8, h9, h10, fun hb => ?_⟩
    rw [if_pos hb, if_pos (h3 ▸ hb)] at h11
    injection h11 with a1 a2 a3 a4 _
    exact ⟨a1, a2, a3, a4⟩
  · rintro ⟨h1, h2, h3, h4, h5, h6, h7, h8, h9, h10, h11⟩
    refine ⟨h1, h2, h3, h4, h5, h6, h7, h8, h9, h10, ?_⟩
    by_cases hb : b.busy = true
    · obtain ⟨a1, a2, a3, a4⟩ := h11 hb
      rw [if_pos hb, if_pos (h3 ▸ hb), a1, a2, a3, a4]
    · rw [if_neg hb, if_neg (h3 ▸ hb)]

end Sys2Proof.Machine
end

