-- ==== Sys2Proof/Laws/Run.lean ====
section
/-! SUPPORT. The laws of a run: over a number of steps, and over a list of events one at a time. -/

namespace Sys2Proof.Machine

@[simp] theorem run_zero (s : State) : Host.Core.run Sys2Proof.core 0 s = .next s := rfl

/-- A run of n + 1 steps is one step, then a run of n. -/
theorem run_succ {s t : State} (h : step s = .next t) (n : Nat) :
    Host.Core.run Sys2Proof.core (n + 1) s = Host.Core.run Sys2Proof.core n t := by
  have h' : Sys2Proof.core.step s = .next t := h
  simp [Host.Core.run, h']

/-- A run of m + n steps is a run of m, then a run of n. -/
theorem run_add (m n : Nat) {s t : State} (h : Host.Core.run Sys2Proof.core m s = .next t) :
    Host.Core.run Sys2Proof.core (m + n) s = Host.Core.run Sys2Proof.core n t := by
  induction m generalizing s with
  | zero => cases h; rw [Nat.zero_add]
  | succ m ih =>
    obtain ⟨u, hu⟩ := step_next s
    rw [run_succ hu] at h
    rw [Nat.succ_add, run_succ hu]
    exact ih h

/-- Every run answers a next state (R209). -/
theorem run_next (n : Nat) (s : State) : ∃ t, Host.Core.run Sys2Proof.core n s = .next t := by
  induction n generalizing s with
  | zero => exact ⟨s, rfl⟩
  | succ n ih =>
    obtain ⟨u, hu⟩ := step_next s
    obtain ⟨t, ht⟩ := ih u
    exact ⟨t, by rw [run_succ hu, ht]⟩

@[simp] theorem withEvents_inbox (s : State) : withEvents s.inbox s = s := rfl

theorem withEvents_eq {s : State} {es : List Event} (h : s.inbox = es) : withEvents es s = s := by
  subst h; rfl

@[simp] theorem runEvents_nil (s : State) : runEvents [] s = .next (withEvents [] s) := rfl

/-- The events of a run, the first one performed. -/
theorem runEvents_cons {e : Event} {es : List Event} {s t : State}
    (h : step (withEvents (e :: es) s) = .next t) : runEvents (e :: es) s = runEvents es t := by
  have hi : t.inbox = es := (step_effect h).2.1
  rw [runEvents, List.length_cons, run_succ h, runEvents, withEvents_eq hi]

/-! ## The events to come do not bear on the event performed -/

theorem accept_withEvents (i : Instr) (es : List Event) (s : State) :
    accept i (withEvents es s) = withEvents es (accept i s) := by
  rcases accept_cases i s with ⟨h, hs⟩ | ⟨h, hw, hs⟩ | ⟨h, hw, hb, hs⟩ | ⟨h, hw, hb, hs⟩
  · rw [hs, accept_busy (s := withEvents es s) h]; rfl
  · rw [hs, accept_absent (s := withEvents es s) h hw]; rfl
  · rw [hs, accept_range (s := withEvents es s) h hw hb]; rfl
  · rw [hs, accept_ok (s := withEvents es s) h hw hb]; rfl

theorem exec_withEvents (i : Instr) (es : List Event) {s t : State} (h : exec i s = .next t) :
    exec i (withEvents es s) = .next (withEvents es t) := by
  cases ht : s.turn with
  | host =>
    rw [exec_host i ht] at h
    rw [exec_host i (s := withEvents es s) ht, accept_withEvents]
    cases h
    by_cases hr : s.rstN = true <;> simp [withEvents, hr]
  | engine =>
    rw [exec_engine i ht] at h
    rw [exec_engine i (s := withEvents es s) ht]
    cases h
    have he : engineEnabled (withEvents es s) = engineEnabled s := rfl
    rw [he]
    split <;> rfl

/-- An event is performed the same whatever events are to come after it (R85). -/
theorem perform_withEvents (e : Event) (es : List Event) {s t : State} (h : perform e s = .next t) :
    perform e (withEvents es s) = .next (withEvents es t) := by
  cases e with
  | engine => exact exec_withEvents _ es h
  | rstN l => cases h; cases l <;> rfl
  | host x =>
    simp only [perform, hostStep] at h ⊢
    rw [show (withEvents es s).cfg = s.cfg from rfl, show (withEvents es s).rstN = s.rstN from rfl]
    cases ho : offsetOf s.cfg x.addr with
    | none => rw [ho] at h; cases h; rfl
    | some off =>
      rw [ho] at h
      by_cases hr : s.rstN = true
      · simp only [if_pos hr] at h ⊢
        cases hd : x.dir with
        | read =>
          simp only [hd] at h ⊢
          cases h
          unfold hostRead
          split <;> rfl
        | write =>
          simp only [hd] at h ⊢
          unfold hostWrite at h ⊢
          by_cases hw : wellFormed off x.size = true
          · rw [if_pos hw] at h ⊢
            cases hl : locate off
            case cmd =>
              simp only [hl, cmdWrite] at h ⊢
              cases hc : decode s.cfg x.data with
              | some i => rw [hc] at h; exact exec_withEvents i es h
              | none =>
                rw [hc] at h; cases h
                simp only [whenIdle]
                by_cases hb : s.blk.busy = true <;> simp [withEvents, hb, refuseIllegal]
            all_goals rw [hl] at h; cases h; rfl
          · rw [if_neg hw] at h ⊢; cases h; rfl
      · simp only [if_neg hr] at h ⊢
        cases h
        cases hd : x.dir <;> simp [hostInReset, hd, withEvents]

/-! ## Runs over lists of events, put together -/

/-- The first event of a run, the others taken out of the inbox. -/
theorem runEvents_cons' {e : Event} {s u : State} (h : perform e { s with rdata := none } = .next u)
    (es : List Event) : runEvents (e :: es) s = runEvents es u := by
  have hs : step (withEvents (e :: es) s) = .next (withEvents es u) := by
    rw [step_withEvents_cons]
    exact perform_withEvents e es (s := { s with rdata := none }) h
  rw [runEvents_cons hs]; rfl

/-- A run over two lists of events is a run over the first, then a run over the second. -/
theorem runEvents_append {xs : List Event} (ys : List Event) {s t : State}
    (h : runEvents xs s = .next t) : runEvents (xs ++ ys) s = runEvents ys t := by
  induction xs generalizing s with
  | nil => cases h; rfl
  | cons e xs ih =>
    obtain ⟨u, hu, -⟩ := perform_effect e { s with rdata := none }
    rw [runEvents_cons' hu] at h
    rw [List.cons_append, runEvents_cons' hu, ih h]

/-- A list of events is performed whole, and no event is left (R209). -/
theorem runEvents_next (es : List Event) (s : State) :
    ∃ t, runEvents es s = .next t ∧ t.inbox = [] ∧ t.cfg = s.cfg := by
  induction es generalizing s with
  | nil => exact ⟨_, rfl, rfl, rfl⟩
  | cons e es ih =>
    obtain ⟨u, hu, hc, -⟩ := perform_effect e { s with rdata := none }
    obtain ⟨t, ht, hi, hc'⟩ := ih u
    exact ⟨t, by rw [runEvents_cons' hu, ht], hi, hc'.trans hc⟩

/-- A run of one event, by its effect. -/
theorem runEvents_one (e : Event) (s : State) :
    ∃ t, runEvents [e] s = .next t ∧ t.cfg = s.cfg ∧ t.rstN = (effect s e).rstN s ∧
      t.blk = (effect s e).after s := by
  obtain ⟨t, ht, hc, hi, hr, hb⟩ := step_cons e [] s
  exact ⟨t, by rw [runEvents_cons ht, runEvents_nil, withEvents_eq hi], hc, hr, hb⟩

/-! ## A command and its WAIT (R115, R116) -/

/-- WAIT ends at a STATUS read exactly when BUSY = 0. -/
theorem waitExits_status {s : State} (h : s.rdata = some (statusWord s.blk)) :
    waitExits s = !s.blk.busy := by
  have key : ∀ b : Block, (statusWord b).getLsbD 0 = b.busy := by
    intro b
    simp only [statusWord, BitVec.getLsbD_or]
    cases b.busy <;> simp [bitWord]
  simp only [waitExits, h, key]

/-- The state after a STATUS read outside reset. -/
def polled (s : State) : State :=
  { s with inbox := [], turn := .host, rdata := some (statusWord s.blk) }

@[simp] theorem polled_blk (s : State) : (polled s).blk = s.blk := rfl
@[simp] theorem polled_cfg (s : State) : (polled s).cfg = s.cfg := rfl
@[simp] theorem polled_rstN (s : State) : (polled s).rstN = s.rstN := rfl

/-- One turn of a `WAIT` loop outside reset: what comes before its read, the read, and the test of BUSY (R115). -/
theorem waitLoop_cons {g : List Event} {s u : State} (turns : List (List Event))
    (hg : runEvents g s = .next u) (hr : u.rstN = true) :
    waitLoop (g :: turns) s =
      if u.blk.busy then waitLoop turns (polled u) else .next (.done (polled u)) := by
  have hc : u.cfg = s.cfg := by
    obtain ⟨t, ht, _, hc⟩ := runEvents_next g s
    rw [hg] at ht; cases ht; exact hc
  have hp : runEvents (g ++ [poll s.cfg]) s = .next (polled u) := by
    rw [runEvents_append _ hg, ← hc, poll, runEvents_cons (step_rd hr 0x014#12 [] (by decide))]
    rfl
  have hw : waitExits (polled u) = !u.blk.busy := waitExits_status rfl
  rw [waitLoop, hp]
  simp only [hw]
  cases u.blk.busy <;> simp

/-- A command with its `WAIT`: the CMD write, then the loop from the state it leaves (R116, R202). -/
theorem sync_eq {i : Instr} {s : State} (turns : List (List Event)) (hr : s.rstN = true) :
    ∃ t, sync i turns s = waitLoop turns t ∧ t.cfg = s.cfg ∧ t.rstN = true ∧
      t.blk = afterCmd (encode i) s := by
  obtain ⟨t, ht, hc, hrt, hb⟩ := runEvents_one (issue s.cfg i) s
  rw [issue, effect_wr hr _ _ (by decide), locate_cmd] at hrt hb
  exact ⟨t, by simp only [sync, ht], hc, hrt.trans hr, hb⟩

/-- Commands one after the other, where the first leaves its loop (R117). -/
theorem syncAll_cons {i : Instr} {turns : List (List Event)} {s t : State}
    (rest : List (Instr × List (List Event))) (h : sync i turns s = .next (.done t)) :
    syncAll ((i, turns) :: rest) s = syncAll rest t := by
  simp only [syncAll, h]

end Sys2Proof.Machine
end

