-- ==== Sys2Proof/Laws/Words.lean ====
section
/-! SUPPORT. The laws of the words of a 256-bit value: read after write, and a value is its words. -/

namespace Sys2Proof.Machine

/-- Bit j of word k is bit 32k+j of the value (R9). -/
theorem getLsbD_word (v : Elem) (k : WordIdx) {j : Nat} (h : j < 32) :
    (word v k).getLsbD j = v.getLsbD (32 * k.val + j) := by
  simp [word, h]

/-- The bits of a value with one word written. -/
theorem getLsbD_setWord (v : Elem) (k : WordIdx) (w : Word) {n : Nat} (h : n < 256) :
    (setWord v k w).getLsbD n =
      if 32 * k.val ≤ n ∧ n < 32 * k.val + 32 then w.getLsbD (n - 32 * k.val) else v.getLsbD n := by
  have hm : ∀ m : Nat, (0xFFFFFFFF#256).getLsbD m = decide (m < 32) := by
    intro m
    have e : (0xFFFFFFFF#256) = (BitVec.allOnes 32).setWidth 256 := by decide
    rw [e, BitVec.getLsbD_setWidth, BitVec.getLsbD_allOnes]
    by_cases h : m < 32
    · simp [h, show m < 256 by omega]
    · simp [h]
  simp only [setWord, BitVec.getLsbD_or, BitVec.getLsbD_and, BitVec.getLsbD_not,
    BitVec.getLsbD_shiftLeft, BitVec.getLsbD_setWidth, hm, h, decide_true, Bool.true_and]
  by_cases h1 : n < 32 * k.val
  · simp [h1, show ¬(32 * k.val ≤ n) by omega]
  · by_cases h2 : n < 32 * k.val + 32
    · simp [h1, show 32 * k.val ≤ n by omega, h2, show n - 32 * k.val < 32 by omega,
        show n - 32 * k.val < 256 by omega]
    · have : w.getLsbD (n - 32 * k.val) = false := BitVec.getLsbD_of_ge _ _ (by omega)
      simp [h1, h2, this, show ¬(n - 32 * k.val < 32) by omega]

/-- Read after write of the same word (R201). -/
@[simp] theorem word_setWord_same (v : Elem) (k : WordIdx) (w : Word) : word (setWord v k w) k = w := by
  apply BitVec.eq_of_getLsbD_eq
  intro j hj
  have := k.isLt
  rw [getLsbD_word _ _ hj, getLsbD_setWord _ _ _ (by omega), if_pos ⟨by omega, by omega⟩,
    Nat.add_sub_cancel_left]

/-- A word write leaves the other seven words (R201). -/
theorem word_setWord_ne (v : Elem) {k k' : WordIdx} (w : Word) (h : k' ≠ k) :
    word (setWord v k w) k' = word v k' := by
  apply BitVec.eq_of_getLsbD_eq
  intro j hj
  have := k'.isLt
  have hne : k'.val ≠ k.val := fun e => h (Fin.ext e)
  rw [getLsbD_word _ _ hj, getLsbD_word _ _ hj, getLsbD_setWord _ _ _ (by omega),
    if_neg (by omega)]

/-- A value is its eight words (R9, R78). -/
theorem elem_ext {v w : Elem} (h : ∀ k, word v k = word w k) : v = w := by
  apply BitVec.eq_of_getLsbD_eq
  intro n hn
  have e : n = 32 * (n / 32) + n % 32 := by omega
  have hk := h ⟨n / 32, by omega⟩
  have := congrArg (fun x : Word => x.getLsbD (n % 32)) hk
  beta_reduce at this
  rwa [getLsbD_word _ _ (by omega), getLsbD_word _ _ (by omega), ← e] at this

end Sys2Proof.Machine
end

