-- ==== Sys2Proof/Tests/Slice0.lean ====
section
/-! SUPPORT. Tests: expected values are those of spec/95_test_vectors.md and of the rules' own examples and corner
cases (the vector's name stands in each docstring); and a witness for the hypotheses of every statement. -/

namespace Sys2Proof.Machine.Tests

/-! ## Well-formedness and decoding -/

/-- R5, R103: HLV, DBL and TPL do not exist where EXT_OPS is false. -/
theorem test_wf_refuses_absent_commands :
    Instr.wf ⟨false, 0⟩ (.hlv 1 0) = false ∧ Instr.wf ⟨false, 0⟩ (.dbl 0 0) = false ∧
      Instr.wf ⟨false, 0⟩ (.tpl 1 0) = false := by decide

/-- X8, X9: ENC with an ignored rs2 field; fields 111 0 111 0 111 0000. -/
theorem test_decode_enc : decode ⟨false, 0⟩ 0b00000000000000000111011101110000#32 = some (.enc 7 7) := by decide

/-- R121: DEC F0, F7; fields 111 0 111 0 000 0001. -/
theorem test_decode_dec : decode ⟨false, 0⟩ 0b00000000000000000111011100000001#32 = some (.dec 0 7) := by decide

/-- X3: MUL F2, F0, F1; fields 001 0 000 0 010 0010. -/
theorem test_decode_mul : decode ⟨false, 0⟩ 0b00000000000000000001000000100010#32 = some (.mul 2 0 1) := by decide

/-- X4: SQR F1, F0; fields 000 0 000 0 001 0011. -/
theorem test_decode_sqr : decode ⟨false, 0⟩ 0b00000000000000000000000000010011#32 = some (.sqr 1 0) := by decide

/-- X5: ADD F7, F6, F5; fields 101 0 110 0 111 0101. -/
theorem test_decode_add : decode ⟨false, 0⟩ 0b00000000000000000101011001110101#32 = some (.add 7 6 5) := by decide

/-- X6: SUB F1, F2, F3; fields 011 0 010 0 001 0110. -/
theorem test_decode_sub : decode ⟨false, 0⟩ 0b00000000000000000011001000010110#32 = some (.sub 1 2 3) := by decide

/-- X22: NEG F7, F7 with an ignored rs2 field; fields 111 0 111 0 111 0111. -/
theorem test_decode_neg : decode ⟨false, 0⟩ 0b00000000000000000111011101110111#32 = some (.neg 7 7) := by decide

/-- X10: HLV F1, F0; fields 000 0 000 0 001 1000. -/
theorem test_decode_hlv : decode ⟨true, 0⟩ 0b00000000000000000000000000011000#32 = some (.hlv 1 0) ∧
    decode ⟨false, 0⟩ 0x00000018#32 = none := by decide

/-- X11: DBL F0, F0; fields 000 0 000 0 000 1001. -/
theorem test_decode_dbl : decode ⟨true, 0⟩ 0b00000000000000000000000000001001#32 = some (.dbl 0 0) ∧
    decode ⟨false, 0⟩ 0x00000009#32 = none := by decide

/-- X12: TPL F1, F0; fields 000 0 000 0 001 1010. -/
theorem test_decode_tpl : decode ⟨true, 0⟩ 0b00000000000000000000000000011010#32 = some (.tpl 1 0) ∧
    decode ⟨false, 0⟩ 0x0000001A#32 = none := by decide

/-- X13-X21: illegal words. -/
theorem test_decode_illegal :
    [0x00000004, 0x0000000B, 0x0000000F, 0x00000082, 0x00000802, 0x00008002, 0x00010000, 0x80000002,
      0xFFFFFFFF].all (fun w => (decode ⟨true, 0⟩ (BitVec.ofNat 32 w)).isNone) = true := by decide

/-- R110: the assembler, lower case, and a wrong operand count refused. -/
theorem test_assemble :
    assemble ['m', 'u', 'l'] [['f', '2'], ['F', '0'], ['f', '1']] = some 0x00001022#32 ∧
      assemble ['E', 'n', 'c'] [['F', '0'], ['F', '0'], ['F', '0']] = none ∧
      assemble ['N', 'E', 'G'] [['F', '8'], ['F', '0']] = none := ⟨rfl, rfl, rfl⟩

/-! ## Completion of each command -/

/-- The machine at the ENGINE's turn, command `o` in flight with destination F1 and operands `a`, `b`. -/
def inFlight (o : Op) (a b : Elem) : State :=
  { State.reset with
    turn := .engine
    blk := { Block.reset with busy := true, eng := ⟨o, 1, a, b, 0⟩ } }

/-- F1 and the status word in the next state. -/
def f1AndStatus (r : Host.Outcome State Fault Refusal) : Option (Elem × Word) :=
  match r with
  | .next t => some (t.blk.readF 1, statusWord t.blk)
  | .fault _ => none
  | .refused _ => none

/-- 2^256 mod p, the Montgomery form of 1 (R139). -/
def montOne : Elem := 0x0000000100000000000000000000000000000000FFFFFFFF0000000000000001#256

/-- ENC(2) (R139). -/
def montTwo : Elem := 0x0000000200000000000000000000000000000001FFFFFFFE0000000000000002#256

/-- p - 1. -/
def pMinus1 : Elem := 0xFFFFFFFEFFFFFFFFFFFFFFFFFFFFFFFFFFFFFFFF00000000FFFFFFFFFFFFFFFE#256

/-- V5. -/
theorem test_enc : f1AndStatus (exec (.enc 1 0) (inFlight .enc pMinus1 Rom.R2)) =
    some (0xFFFFFFFDFFFFFFFFFFFFFFFFFFFFFFFFFFFFFFFE00000001FFFFFFFFFFFFFFFE#256, 2) := by decide +kernel

/-- V13. -/
theorem test_dec : f1AndStatus (exec (.dec 1 0) (inFlight .dec 2 1)) =
    some (0xFFFFFFF70000000BFFFFFFF800000005FFFFFFFB0000000CFFFFFFF200000009#256, 2) := by decide +kernel

/-- V15. -/
theorem test_mul : f1AndStatus (exec (.mul 1 0 2) (inFlight .mul montTwo
      0x0000000300000000000000000000000000000002FFFFFFFD0000000000000003#256)) =
    some (0x0000000600000000000000000000000000000005FFFFFFFA0000000000000006#256, 2) := by decide +kernel

/-- V21. -/
theorem test_mul_r_cubed : f1AndStatus (exec (.mul 1 0 2) (inFlight .mul Rom.R2 Rom.R2)) =
    some (0x0000001B000000090000000A0000000C0000000EFFFFFFF80000001200000016#256, 2) := by decide +kernel

/-- V26. -/
theorem test_sqr : f1AndStatus (exec (.sqr 1 0) (inFlight .sqr pMinus1 pMinus1)) =
    some (0xFFFFFFFB00000005FFFFFFFC00000002FFFFFFFD00000006FFFFFFF900000004#256, 2) := by decide +kernel

/-- V33: the sum is 2^256. -/
theorem test_add : f1AndStatus (exec (.add 1 0 2) (inFlight .add (1#256 <<< 255) (1#256 <<< 255))) =
    some (montOne, 2) := by decide +kernel

/-- V40: rs1 is the minuend. -/
theorem test_sub : f1AndStatus (exec (.sub 1 0 2) (inFlight .sub 3 5)) =
    some (0xFFFFFFFEFFFFFFFFFFFFFFFFFFFFFFFFFFFFFFFF00000000FFFFFFFFFFFFFFFD#256, 2) := by decide +kernel

/-- V45. -/
theorem test_neg : f1AndStatus (exec (.neg 1 0) (inFlight .neg
      0x7FFFFFFF7FFFFFFFFFFFFFFFFFFFFFFFFFFFFFFF800000008000000000000000#256 0)) =
    some (0x7FFFFFFF7FFFFFFFFFFFFFFFFFFFFFFFFFFFFFFF800000007FFFFFFFFFFFFFFF#256, 2) := by decide +kernel

/-- V42. -/
theorem test_neg_zero : f1AndStatus (exec (.neg 1 0) (inFlight .neg 0 0)) = some (0, 2) := by decide +kernel

/-- V49: the odd branch. -/
theorem test_hlv : f1AndStatus (exec (.hlv 1 0) (inFlight .hlv 3 0)) =
    some (0x7FFFFFFF7FFFFFFFFFFFFFFFFFFFFFFFFFFFFFFF800000008000000000000001#256, 2) := by decide +kernel

/-- V55. -/
theorem test_dbl : f1AndStatus (exec (.dbl 1 0) (inFlight .dbl ((1#256 <<< 255) + 5) 0)) =
    some (0x0000000100000000000000000000000000000000FFFFFFFF000000000000000B#256, 2) := by decide +kernel

/-- V58. -/
theorem test_tpl : f1AndStatus (exec (.tpl 1 0) (inFlight .tpl pMinus1 0)) =
    some (0xFFFFFFFEFFFFFFFFFFFFFFFFFFFFFFFFFFFFFFFF00000000FFFFFFFFFFFFFFFC#256, 2) := by decide +kernel

/-! ## Transactions -/

/-- The STATUS and ERRINFO words after one event, and the read data. -/
def seen (s : State) (e : Event) : Option (Word × Word × Option Word) :=
  match step (withEvents [e] s) with
  | .next t => some (statusWord t.blk, t.blk.errinfo, t.rdata)
  | .fault _ => none
  | .refused _ => none

/-- F0 = p - 1, F1 = 1, F3 = p, F4 = 2^256 - 1, the others 0; idle, with EXT_OPS and without. -/
def sample (ext : Bool) : State :=
  let s := State.resetOf ⟨ext, 2⟩
  { s with blk := (((s.blk.writeF 0 pMinus1).writeF 1 1).writeF 3 Rom.P).writeF 4 (BitVec.allOnes 256) }

/-- The sample with a MUL in flight to F2. -/
def busySample : State :=
  let s := sample true
  { s with blk := { s.blk with busy := true, eng := ⟨.mul, 2, pMinus1, 1, 0⟩ } }

/-- The sample with an ILLEGAL_CMD recorded (E6). -/
def errSample : State :=
  let s := sample true
  { s with blk := raiseError .illegalCmd 4 0 { s.blk with cmdrb := 4, ie := true } }

/-- The sample with a command done. -/
def doneSample : State :=
  let s := sample true
  { s with blk := { s.blk with done := true, ie := true } }

/-- E2, E3, E5, E4: operands out of and in range. -/
theorem test_range :
    seen (sample true) (wr ⟨true, 2⟩ 0x018#12 0x00003302#32) = some (0x324, 0x3302, none) ∧
    seen (sample true) (wr ⟨true, 2⟩ 0x018#12 0x00004025#32) = some (0x224, 0x4025, none) ∧
    seen (sample true) (wr ⟨true, 2⟩ 0x018#12 0x00000320#32) = some (0x124, 0x320, none) ∧
    seen (sample true) (wr ⟨true, 2⟩ 0x018#12 0x00000020#32) = some (1, 0, none) ∧
    seen (sample true) (wr ⟨true, 2⟩ 0x018#12 0x00004027#32) = some (1, 0, none) := by decide +kernel

/-- E6, E7, E8, E9: illegal words; DBL with and without EXT_OPS. -/
theorem test_illegal :
    seen (sample true) (wr ⟨true, 2⟩ 0x018#12 0x00000004#32) = some (0x14, 4, none) ∧
    seen (sample true) (wr ⟨true, 2⟩ 0x018#12 0x00000082#32) = some (0x14, 0x82, none) ∧
    seen (sample false) (wr ⟨false, 2⟩ 0x018#12 0x00000009#32) = some (0x14, 9, none) ∧
    seen (sample true) (wr ⟨true, 2⟩ 0x018#12 0x00000009#32) = some (1, 0, none) := by decide +kernel

/-- E10, E11, E21: BUSY_CMD; BUSY_WRITE; a refused command clears DONE. -/
theorem test_busy :
    seen busySample (wr ⟨true, 2⟩ 0x018#12 0x00001022#32) = some (0x35, 0x1022, none) ∧
    seen busySample (wr ⟨true, 2⟩ 0x100#12 5) = some (0x45, 0x14100, none) ∧
    seen doneSample (wr ⟨true, 2⟩ 0x018#12 4) = some (0x14, 4, none) := by decide +kernel

/-- E13-E16: ill-formed accesses. -/
theorem test_bad_access :
    seen State.reset (rd ⟨true, 0⟩ 0x102#12) = some (0x54, 0x4102, some 0) ∧
    seen State.reset (.host ⟨.write, 0x010, 1, 3⟩) = some (0x54, 0x11010, none) ∧
    seen State.reset (.host ⟨.write, 0x100, 8, 3⟩) = some (0x54, 0x18100, none) ∧
    seen State.reset (.host ⟨.read, 0x014, 2, 0⟩) = some (0x54, 0x2014, some 0) := by decide +kernel

/-- E17-E20: a second error sets EOVF alone; write 1 to clear. -/
theorem test_status_write :
    seen errSample (wr ⟨true, 2⟩ 0x018#12 0xB) = some (0x1C, 4, none) ∧
    seen errSample (wr ⟨true, 2⟩ 0x014#12 4) = some (0, 0, none) ∧
    seen State.reset (wr ⟨true, 0⟩ 0x014#12 1) = some (0, 0, none) ∧
    seen doneSample (wr ⟨true, 2⟩ 0x014#12 2) = some (0, 0, none) := by decide +kernel

/-- RS2: a soft reset with IE also set, while a command is in flight. -/
theorem test_soft_reset :
    (match step (withEvents [wr ⟨true, 2⟩ 0x010#12 3] busySample) with
      | .next t => t.blk == Block.reset && !irq t
      | .fault _ => false
      | .refused _ => false) = true := by decide +kernel

/-- The words read at the offsets `os`. -/
def readsAt (s : State) (os : List Nat) : List Word := os.map fun o => readAt s (BitVec.ofNat 12 o)

/-- H1-H10: reads after reset. -/
theorem test_reads_control :
    readsAt State.reset [0x000, 0x004, 0x008, 0x00C, 0x010, 0x014, 0x018, 0x01C, 0x020, 0x028] =
      [0x50324D53, 0x100, 0x7EF, 8, 0, 0, 0, 0, 0xFFFFFFFF, 0] := by decide +kernel

/-- H11-H18, and CMD after E6. -/
theorem test_reads_constants :
    readsAt State.reset [0x03C, 0x040, 0x05C, 0x060, 0x0FC, 0x200, 0xFFC, 0x1E4] =
      [0xFFFFFFFE, 3, 4, 0, 0, 0, 0, 0] ∧ readsAt errSample [0x018] = [4] := by decide +kernel

/-- R77: the bytes of ID are "S", "M", "2", "P". -/
theorem test_byte_lanes : (List.finRange 4).map (byteLane Rom.ID) = [0x53, 0x4D, 0x32, 0x50] := by decide

/-- The words of every row of the opcode table run as the first command after reset: each is accepted. -/
theorem test_first_command_after_reset :
    ∀ w ∈ [0, 1, 2, 3, 5, 6, 7, 8, 9, 10],
      (match step (State.reset.withFetchWord 32 w) with
        | .next t => statusWord t.blk == 1#32 && t.blk.eng.opc.code == BitVec.ofNat 4 w
        | .fault _ => false
        | .refused _ => false) = true := by decide +kernel

/-! ## Witnesses: states and operands that meet the hypotheses of each statement -/

theorem witness_DecodeOfEncode :
    Instr.wf ⟨true, 0⟩ (.hlv 7 7) = true ∧ Instr.wf ⟨false, 1⟩ (.mul 7 7 7) = true := by decide

theorem witness_DecodedWordEncodesBack :
    decode ⟨false, 0⟩ 0x00007777#32 = some (.neg 7 7) ∧
      decode ⟨true, 0⟩ 0x00007772#32 = some (.mul 7 7 7) := by decide

theorem witness_IllegalWordsAreExactlyTheRest :
    HostIdle (sample false) ∧ Instr.wf (sample false).cfg (.hlv 1 0) = false := ⟨⟨rfl, rfl, rfl⟩, rfl⟩

theorem witness_IgnoredFieldHasNoEffect :
    (0x00007070#32 &&& 0xFFFF8FFF#32 = 0x00000070#32 &&& 0xFFFF8FFF#32 ∧
      decode ⟨true, 0⟩ 0x00007070#32 = some (.enc 7 0) ∧ (Instr.enc 7 0).rs2 = none) ∧
    ((sample true).turn = .host ∧ (4 : FReg) ≠ (Instr.enc 7 0).rs1 ∧
      ∃ t, exec (.enc 7 0) (sample true) = .next t ∧ t.blk.busy = true) :=
  ⟨by decide, rfl, by decide, _, rfl, rfl⟩

theorem witness_CmdWriteStepRunsDecodedCommand :
    (sample true).rstN = true ∧ decode (sample true).cfg 0x00001022#32 = some (.mul 2 0 1) := by decide

theorem witness_EngineTurnRunsCommandInFlight :
    opOf (.mul 2 7 7) = busySample.blk.eng.opc ∧ (Instr.mul 2 7 7).rd = busySample.blk.eng.rd := by decide

/-- The hypotheses of EncWritesMontgomeryForm, DecWritesNormalForm, MulWritesMontgomeryProduct,
SqrWritesMontgomerySquare, AddWritesSumModP, SubWritesDifferenceModP, NegWritesNegationModP, HlvWritesHalfModP,
DblWritesDoubleModP, TplWritesTripleModP, CommandFrameThroughTheWindow and OperandsLatchedPerOpcode: the block
idle, the command there, its operands legal, one of them p - 1. -/
theorem witness_commands :
    HostIdle (sample true) ∧ (sample true).cfg.extOps = true ∧ HostIdle (sample false) ∧
      (sample true).blk.readF 0 = pMinus1 ∧ ((sample true).blk.readF 0).toNat < Rom.p ∧
      ((sample true).blk.readF 1).toNat < Rom.p ∧
      Instr.wf (sample true).cfg (.tpl 0 0) = true ∧ operandsLegal (sample true).blk (.tpl 0 0) = true ∧
      operandsLegal (sample true).blk (.sub 0 0 0) = true :=
  ⟨⟨rfl, rfl, rfl⟩, rfl, ⟨rfl, rfl, rfl⟩, by decide, by decide, by decide, by decide, by decide, by decide⟩

theorem witness_CommandFrameThroughTheWindow :
    (0x01C#12 : Off) ≠ 0x014#12 ∧ (∀ k, locate 0x01C#12 ≠ .field (Instr.add 7 0 1).rd k) ∧
      (∀ k, locate (fieldOff 6 7) ≠ .field (Instr.add 7 0 1).rd k) := by decide

theorem witness_RangeCheckAtAcceptance :
    HostIdle (sample true) ∧ Rom.p ≤ ((sample true).blk.readF 3).toNat ∧
      Rom.p ≤ ((sample true).blk.readF (Instr.enc 0 4).rs1).toNat ∧
      (∃ r, (Instr.add 2 0 4).rs2 = some r ∧ Rom.p ≤ ((sample true).blk.readF r).toNat) ∧
      (∀ r, (Instr.add 2 0 1).rs2 = some r → ((sample true).blk.readF r).toNat < Rom.p) := by
  refine ⟨⟨rfl, rfl, rfl⟩, by decide, by decide, ⟨4, rfl, by decide⟩, ?_⟩
  rintro r ⟨⟩; decide

/-- CommandWhileBusyIsDropped and CmdWriteChecksInOrder: a busy machine, the ends of CMD's four byte offsets, an
illegal word, a legal one on illegal operands. -/
theorem witness_CmdWrites :
    busySample.rstN = true ∧ busySample.blk.busy = true ∧
      offsetOf busySample.cfg (addrOf busySample.cfg 0x018#12) = some 0x018#12 ∧
      offsetOf busySample.cfg (addrOf busySample.cfg 0x01B#12) = some 0x01B#12 ∧
      decode (sample true).cfg 4 = none ∧
      decode (sample true).cfg 0x3302 = some (.mul 0 3 3) ∧
      operandsLegal (sample true).blk (.mul 0 3 3) = false := by decide

theorem witness_EngineCompletesCommandInFlight :
    ((inFlight .dec 2 1).turn = .engine ∧ opOf (.dec 7 7) = (inFlight .dec 2 1).blk.eng.opc ∧
      (inFlight .dec 2 1).blk.busy = true ∧ (inFlight .dec 2 1).rstN = true) ∧
    ({ State.reset with turn := .engine } : State).blk.busy = false := by decide

/-- ResultTable, MontgomeryLaws, AdditiveLaws, WordSerialReductionIsMontMul: the operands 0, 1 and p - 1. -/
theorem witness_arithmetic :
    (0 : Elem).toNat < Rom.p ∧ (1 : Elem).toNat < Rom.p ∧ pMinus1.toNat < Rom.p := by decide

/-- FirstErrorWins and ErrorRecordClearing: an event that clears an error and one that does not; both are steps. -/
theorem witness_errors :
    (∃ t, step (withEvents [wr ⟨true, 2⟩ 0x014#12 4] errSample) = .next t ∧ errSample.blk.err = true ∧
      clearsError errSample (wr ⟨true, 2⟩ 0x014#12 4) = true ∧ t.blk.err = false) ∧
    (∃ t, step (withEvents [wr ⟨true, 2⟩ 0x018#12 4] errSample) = .next t ∧ t.blk.err = true ∧
      clearsError errSample (wr ⟨true, 2⟩ 0x018#12 4) = false) :=
  ⟨⟨_, rfl, by decide, by decide, rfl⟩, ⟨_, rfl, rfl, by decide⟩⟩

theorem witness_FieldWordWrite :
    ((sample true).rstN = true ∧ (sample true).blk.busy = false) ∧
      (busySample.rstN = true ∧ busySample.blk.busy = true) ∧
      word (BitVec.allOnes 256) 7 = 0xFFFFFFFF#32 := by decide

theorem witness_FieldAccessWhileBusy :
    busySample.rstN = true ∧ busySample.blk.busy = true ∧
      ∀ n ∈ [0x100, 0x1FC], (BitVec.ofNat 12 n).toNat % 4 = 0 ∧ 0x100 ≤ (BitVec.ofNat 12 n).toNat ∧
        (BitVec.ofNat 12 n).toNat ≤ 0x1FC := by decide

theorem witness_IllFormedAccessIsBadAccess :
    offsetOf (sample true).cfg 0x2000 = some 0x000#12 ∧ (1 ≠ 4 ∨ (0x000#12).toNat % 4 ≠ 0) ∧
      offsetOf (sample true).cfg 0x2FFF = some 0xFFF#12 ∧ (4 ≠ 4 ∨ (0xFFF#12).toNat % 4 ≠ 0) := by decide

theorem witness_ErrorDoesNotBlock :
    errSample.rstN = true ∧ errSample.blk.busy = false ∧ errSample.blk.err = true ∧
      decode errSample.cfg 0x1022 = some (.mul 2 0 1) ∧
      operandsLegal errSample.blk (.mul 2 0 1) = true := by decide

theorem witness_ErrorExactlyOnMisuse :
    (∃ t, step (withEvents [wr ⟨true, 2⟩ 0x018#12 4] (sample true)) = .next t ∧
      (sample true).blk.err = false ∧ respectsHazards (sample true) (wr ⟨true, 2⟩ 0x018#12 4) = false) ∧
    (∃ t, step (withEvents [wr ⟨true, 2⟩ 0x018#12 2] (sample true)) = .next t ∧
      respectsHazards (sample true) (wr ⟨true, 2⟩ 0x018#12 2) = true) :=
  ⟨⟨_, rfl, by decide, by decide⟩, ⟨_, rfl, by decide⟩⟩

/-- A respectful host: it issues MUL F2, F0, F1 and lets it complete. -/
theorem witness_RespectfulHostSeesNoError :
    (sample true).blk.err = false ∧
    (∀ n t e, n < [wr ⟨true, 2⟩ 0x018#12 0x1022, Event.engine].length →
      Host.Core.run Sys2Proof.core n
        (withEvents [wr ⟨true, 2⟩ 0x018#12 0x1022, .engine] (sample true)) = .next t →
      t.inbox.head? = some e → respectsHazards t e = true) ∧
    (writesTo .cmd (sample true) (wr ⟨true, 2⟩ 0x018#12 0x1022)).isSome = true := by
  refine ⟨by decide, ?_, by decide⟩
  intro n t e hn h he
  match n, hn with
  | 0, _ => cases h; cases he; decide
  | 1, _ => cases h; cases he; rfl

/-- CtrlWriteSetsIeOrResets, StatusWriteOneToClear, StatusReadLayout, FieldRegisterOffsets, ReadsAreIdempotent:
`rst_n` deasserted, and their clauses at their boundaries. -/
theorem witness_control :
    (sample true).rstN = true ∧ (3 : Word).getLsbD 1 = true ∧ (1 : Word).getLsbD 1 = false ∧
      (0x1FC#12).toNat ≤ 0x1FC ∧ (0x1FC#12 : Off).extractLsb' 0 2 = 0#2 ∧
      (0x100#12 : Off).extractLsb' 0 2 = 0#2 ∧ (0xFFC#12).toNat % 4 = 0 ∧
      fieldOff 7 7 = 0x1FC#12 := by decide

theorem witness_ConstantsReadTheSameAlways :
    ((0x008#12, if (sample false).cfg.extOps then 0x000007EF#32 else 0x000000EF#32) ∈
      [(0x000#12, 0x50324D53#32), (0x004#12, 0x00000100#32), (0x00C#12, 0x00000008#32),
        (0x008#12, if (sample false).cfg.extOps then 0x000007EF#32 else 0x000000EF#32)]) ∧
    (∃ k : WordIdx, (0x03C#12).toNat = 0x020 + 4 * k.val ∧
      (0xFFFFFFFE#32).toNat = Rom.p / 2 ^ (32 * k.val) % 2 ^ 32) ∧
    (∃ k : WordIdx, (0x05C#12).toNat = 0x040 + 4 * k.val ∧
      (4#32).toNat = (2 ^ 256 % Rom.p) * (2 ^ 256 % Rom.p) % Rom.p / 2 ^ (32 * k.val) % 2 ^ 32) :=
  ⟨by decide, ⟨7, by decide⟩, ⟨7, by decide⟩⟩

theorem witness_ReservedAndReadOnlyOffsets :
    (∀ n ∈ [0x060, 0x0FC], (BitVec.ofNat 12 n).toNat % 4 = 0 ∧ 0x060 ≤ (BitVec.ofNat 12 n).toNat ∧
      (BitVec.ofNat 12 n).toNat ≤ 0x0FC) ∧
    (∀ n ∈ [0x200, 0xFFC], (BitVec.ofNat 12 n).toNat % 4 = 0 ∧ 0x200 ≤ (BitVec.ofNat 12 n).toNat) ∧
    (0x00C#12).toNat ≤ 0x00C ∧
    (∀ n ∈ [0x01C, 0x05C], (BitVec.ofNat 12 n).toNat % 4 = 0 ∧ 0x01C ≤ (BitVec.ofNat 12 n).toNat ∧
      (BitVec.ofNat 12 n).toNat ≤ 0x05C) := by decide

theorem witness_IrqLevelAndItsClearing :
    doneSample.rstN = true ∧ irq doneSample = true ∧
      decode doneSample.cfg 0x1022 = some (.mul 2 0 1) ∧ doneSample.blk.busy = false ∧
      doneSample.blk.err = false ∧ operandsLegal doneSample.blk (.mul 2 0 1) = true := by decide

theorem witness_ResetValues :
    resetsNow busySample (.rstN false) = true ∧ resetsNow busySample (wr ⟨true, 2⟩ 0x010#12 3) = true ∧
      (∃ t, step (withEvents [.rstN false] busySample) = .next t) ∧
      (∃ t, step (withEvents [wr ⟨true, 2⟩ 0x010#12 3] busySample) = .next t) :=
  ⟨by decide, by decide, ⟨_, rfl⟩, ⟨_, rfl⟩⟩

/-- A state in which `rst_n` is asserted. -/
def resetHeld : State := { State.reset with rstN := false }

theorem witness_NothingHappensDuringReset :
    (∀ e ∈ [wr ⟨true, 0⟩ 0x018#12 2, .engine, .rstN false], e ≠ .rstN true) ∧
    resetHeld.rstN = false ∧ offsetOf resetHeld.cfg 0x000 = some 0x000#12 ∧
    (∃ t, step (withEvents [.host ⟨.read, 0x000, 4, 0⟩] resetHeld) = .next t) :=
  ⟨by decide, by decide, by decide, ⟨_, rfl⟩⟩

theorem witness_SoftResetAbortsCommand :
    busySample.rstN = true ∧ (2 : Word).getLsbD 1 = true ∧
      offsetOf busySample.cfg 0x2010 = some 0x010#12 ∧ (1 ≠ 4 ∨ 0x010#12 ≠ 0x010#12) ∧
      offsetOf busySample.cfg 0x2013 = some 0x013#12 ∧ (4 ≠ 4 ∨ 0x013#12 ≠ 0x010#12) := by decide

/-- A step that changes a field register by each of the three causes. -/
theorem witness_WhatWritesFieldRegisters :
    (∃ t, step (withEvents [] busySample) = .next t ∧ t.blk.readF 2 ≠ busySample.blk.readF 2) ∧
    (∃ t, step (withEvents [wr ⟨true, 2⟩ 0x140#12 5] (sample true)) = .next t ∧
      t.blk.readF 2 ≠ (sample true).blk.readF 2) ∧
    (∃ t, step (withEvents [.rstN false] busySample) = .next t ∧
      t.blk.readF 0 ≠ busySample.blk.readF 0) :=
  ⟨⟨_, rfl, by decide +kernel⟩, ⟨_, rfl, by decide +kernel⟩, ⟨_, rfl, by decide +kernel⟩⟩

/-- BusyRisesAndFalls and DoneRisesAndFalls: steps from a state with BUSY 0, BUSY 1, DONE 0, DONE 1. -/
theorem witness_BusyAndDone :
    (∃ t, step (withEvents [wr ⟨true, 2⟩ 0x018#12 0x1022] doneSample) = .next t ∧ t.blk.busy = true ∧
      doneSample.blk.busy = false ∧ doneSample.blk.done = true) ∧
    (∃ t, step (withEvents [] busySample) = .next t ∧ t.blk.busy = false ∧ busySample.blk.busy = true ∧
      busySample.blk.done = false) :=
  ⟨⟨_, rfl, rfl, by decide, by decide⟩, ⟨_, rfl, rfl, by decide, by decide⟩⟩

/-- The invariant holds of a state with a command in flight, and it has a step. -/
theorem witness_EveryStepKeepsInv : Inv busySample ∧ ∃ t, step busySample = .next t := by
  refine ⟨⟨fun _ => by decide, fun _ => by decide, fun _ => rfl, by decide, fun _ => by decide, by decide,
    by decide, by decide⟩, step_next _⟩

/-- Two machines that differ in ENG.T and in the free-value counter. -/
theorem witness_HiddenStateIsNotObservable :
    SameVisible busySample { busySample with
        freeCount := 9, blk := { busySample.blk with eng := { busySample.blk.eng with t := 7 } } } ∧
      ∃ t, step busySample = .next t := 
  ⟨⟨rfl, by simp [Block.visible, busySample], rfl, rfl, rfl⟩, step_next _⟩

/-- CommandCompletesEventually and ReadRaceHasBothOutcomes. -/
theorem witness_CommandCompletesEventually : busySample.rstN = true ∧ busySample.blk.busy = true := by decide

theorem witness_ResultSurvivesHostTraffic :
    (sample true).rstN = true ∧ (sample true).blk.busy = false ∧
      decode (sample true).cfg 0x1022 = some (.mul 2 0 1) ∧
      operandsLegal (sample true).blk (.mul 2 0 1) = true ∧
      (∀ e ∈ [wr ⟨true, 2⟩ 0x100#12 5, wr ⟨true, 2⟩ 0x018#12 0, wr ⟨true, 2⟩ 0x010#12 1],
        (∃ x, e = .host x) ∧ resets (sample true).cfg e = false) := by
  refine ⟨by decide, by decide, by decide, by decide, ?_⟩
  intro e he
  simp only [List.mem_cons, List.not_mem_nil, or_false] at he
  rcases he with rfl | rfl | rfl <;> exact ⟨⟨_, rfl⟩, by decide⟩

/-- R115: a WAIT whose STATUS read sees BUSY = 1 reads again; once the ENGINE's step has come it reads DONE
and ends (bits of R197). -/
theorem test_wait_reads_again :
    (∃ t, waitLoop [[]] busySample = .next (.looping t) ∧ t.rdata = some 1) ∧
      ∃ t, waitLoop [[], [.engine], []] busySample = .next (.done t) ∧ t.rdata = some 2 := by
  constructor <;> exact ⟨_, by rfl, by decide +kernel⟩

/-- PseudoInstructionResults and LoadAndStoreFieldRegister. -/
theorem witness_PseudoInstructions :
    (sample true).rstN = true ∧ (sample true).blk.busy = false ∧
      ((sample true).blk.readF 0).toNat < Rom.p ∧ ((sample true).blk.readF 1).toNat < Rom.p ∧
      (2 : FReg) ≠ 0 := by decide

/-- PseudoInstructionResults: the ENGINE's step in the second turn; a legal command, and one refused for each cause. -/
theorem witness_Sync :
    EngineTurns [[], [.engine]] ∧ (∀ e ∈ ([] : List Event), e = .engine) ∧
      Instr.wf (sample true).cfg (.mul 2 0 1) = true ∧
      operandsLegal (sample true).blk (.mul 2 0 1) = true ∧
      (Instr.wf (sample true).cfg (.mul 2 3 0) && operandsLegal (sample true).blk (.mul 2 3 0)) = false ∧
      (Instr.wf (sample false).cfg (.hlv 1 0) && operandsLegal (sample false).blk (.hlv 1 0)) = false :=
  ⟨by simp [EngineTurns], nofun, by decide, by decide, by decide, by decide⟩

/-- PseudoInstructionResults: a WAIT that ends. -/
theorem witness_Wait :
    (sample true).rstN = true ∧ ∃ t, waitLoop [[]] (sample true) = .next (.done t) := ⟨rfl, _, by rfl⟩

end Sys2Proof.Machine.Tests
end

section
/-! PROOFS. Reset values, the level `irq`, and when BUSY and DONE change (10_state.md: R40, R48, R50). -/

namespace Sys2Proof.Machine

/-! ## What the writes and the effects do to the control fields -/

@[simp] theorem ctrlWrite_done (v : Word) (b : Block) :
    (ctrlWrite v b).done = (b.done && !v.getLsbD 1) := by
  unfold ctrlWrite; cases v.getLsbD 1 <;> simp

@[simp] theorem ctrlWrite_busy (v : Word) (b : Block) :
    (ctrlWrite v b).busy = (b.busy && !v.getLsbD 1) := by
  unfold ctrlWrite; cases v.getLsbD 1 <;> simp

@[simp] theorem statusWrite_done (v : Word) (b : Block) :
    (statusWrite v b).done = (b.done && !v.getLsbD 1) := by
  unfold statusWrite; cases v.getLsbD 1 <;> cases v.getLsbD 2 <;> simp

@[simp] theorem statusWrite_err (v : Word) (b : Block) :
    (statusWrite v b).err = (b.err && !v.getLsbD 2) := by
  unfold statusWrite; cases v.getLsbD 1 <;> cases v.getLsbD 2 <;> simp

@[simp] theorem statusWrite_busy (v : Word) (b : Block) : (statusWrite v b).busy = b.busy := by
  unfold statusWrite; cases v.getLsbD 1 <;> cases v.getLsbD 2 <;> rfl

@[simp] theorem fieldWrite_done (i : FReg) (k : WordIdx) (v : Word) (b : Block) :
    (fieldWrite i k v b).done = b.done := by
  unfold fieldWrite; cases b.busy <;> simp

@[simp] theorem fieldWrite_busy (i : FReg) (k : WordIdx) (v : Word) (b : Block) :
    (fieldWrite i k v b).busy = b.busy := by
  unfold fieldWrite; split <;> simp

/-- A CMD write clears DONE unless a command is in flight, whatever the word (R202). -/
theorem afterCmd_done (c : Word) (s : State) :
    (afterCmd c s).done = (s.blk.done && s.blk.busy) := by
  rcases afterCmd_cases c s with ⟨hb, h⟩ | ⟨hb, _, h⟩ | ⟨_, hb, _, _, h⟩ | ⟨_, hb, _, _, h⟩ <;>
    simp [h, hb]

/-- After a CMD write BUSY is 1 when it was 1 before, or when the command is accepted (R202). -/
theorem afterCmd_busy_iff (c : Word) (s : State) :
    (afterCmd c s).busy = true ↔ s.blk.busy = true ∨
      (s.blk.busy = false ∧ ∃ i, decode s.cfg c = some i ∧ badOperand s.blk i = false) := by
  rcases afterCmd_cases c s with ⟨hb, h⟩ | ⟨hb, hd, h⟩ | ⟨_, hb, hd, hl, h⟩ | ⟨_, hb, hd, hl, h⟩
  · simp [h, hb]
  · simp [h, hb, hd]
  all_goals simp [h, hb, hd, hl]

/-- An event that resets the block leaves it at its reset values (R261, R263). -/
theorem after_of_resetsNow {s : State} {e : Event} (h : resetsNow s e = true) :
    (effect s e).after s = Block.reset := by
  rcases (resetsNow_iff s e).1 h with he | ⟨v, he, hv⟩
  · rw [he]; rfl
  · rw [he]; simp [Effect.after, ctrlWrite, hv]

/-- A step whose event is a well-formed write. -/
theorem step_wr {s : State} (hr : s.rstN = true) (off : Off) (v : Word) (rest : List Event)
    (ha : off.toNat % 4 = 0) :
    ∃ t, step (withEvents (wr s.cfg off v :: rest) s) = .next t ∧
      t.blk = (writeEffect v (locate off)).after s := by
  obtain ⟨t, ht, -, -, -, hblk⟩ := step_cons (wr s.cfg off v) rest s
  exact ⟨t, ht, by rw [hblk, effect_wr hr off v ha]⟩

/-! ## When BUSY and DONE change (R39, R40) -/

/-- DONE after a step: set by completion, kept unless the event clears it (R40). -/
theorem step_done_iff {s t : State} (h : step s = .next t) :
    t.blk.done = true ↔ completesCommand s (nextEvent s.inbox).1 = true ∨
      (s.blk.done = true ∧ ¬clearsDone s (nextEvent s.inbox).1 = true) := by
  obtain ⟨-, -, -, hblk⟩ := step_effect h
  rw [hblk, completesCommand_eq, clearsDone_iff]
  cases effect s (nextEvent s.inbox).1 with
  | cmd c => simp [Effect.after, afterCmd_done]
  | pin level => cases level <;> simp [Effect.after]
  | _ => simp [Effect.after]

/-- BUSY after a step: set by acceptance, kept unless the event completes the command or resets (R39). -/
theorem step_busy_iff {s t : State} (h : step s = .next t) :
    t.blk.busy = true ↔ acceptsCommand s (nextEvent s.inbox).1 = true ∨
      (s.blk.busy = true ∧ ¬completesCommand s (nextEvent s.inbox).1 = true ∧
        ¬resetsNow s (nextEvent s.inbox).1 = true) := by
  obtain ⟨-, -, -, hblk⟩ := step_effect h
  rw [hblk, completesCommand_eq, acceptsCommand_iff, resetsNow_iff]
  cases effect s (nextEvent s.inbox).1 with
  | cmd c => simp [Effect.after, afterCmd_busy_iff, or_comm]
  | pin level => cases level <;> simp [Effect.after]
  | _ => simp [Effect.after]

/-- An event that completes a command is none of those that clear DONE (R40). -/
theorem not_clearsDone_of_completes {s : State} {e : Event} (h : completesCommand s e = true) :
    ¬clearsDone s e = true := by
  rw [clearsDone_iff, (completesCommand_eq s e).1 h]; simp

/-- An accepted command clears DONE (R202). -/
theorem clearsDone_of_accepts {s : State} {e : Event} (h : acceptsCommand s e = true) :
    clearsDone s e = true := by
  obtain ⟨c, -, he, hb, -, -⟩ := (acceptsCommand_iff s e).1 h
  exact (clearsDone_iff s e).2 (.inr (.inr (.inl ⟨c, he, hb⟩)))

/-- An event that completes a command is no acceptance: the ENGINE step is no HOST step (R12). -/
theorem not_accepts_of_completes {s : State} {e : Event} (h : completesCommand s e = true) :
    ¬acceptsCommand s e = true :=
  fun ha => not_clearsDone_of_completes h (clearsDone_of_accepts ha)

/-- A step leaves BUSY and DONE not both 1 where they were not both 1 before (R40). -/
theorem step_keeps_notBoth {s t : State} (h : step s = .next t)
    (hs : ¬(s.blk.busy = true ∧ s.blk.done = true)) : ¬(t.blk.busy = true ∧ t.blk.done = true) := by
  rintro ⟨hb, hd⟩
  rcases (step_busy_iff h).1 hb with ha | ⟨hsb, hc, -⟩
  · rcases (step_done_iff h).1 hd with hc | ⟨-, hcl⟩
    · exact not_accepts_of_completes hc ha
    · exact hcl (clearsDone_of_accepts ha)
  · rcases (step_done_iff h).1 hd with hc' | ⟨hsd, -⟩
    · exact hc hc'
    · exact hs ⟨hsb, hsd⟩

/-- Settles O48: `step_done_iff` read from DONE = 0 and from DONE = 1, and `step_keeps_notBoth`. -/
theorem doneRisesAndFalls : Obligations.DoneRisesAndFalls := by
  unfold Obligations.DoneRisesAndFalls
  intro s t h
  refine ⟨fun hd => ?_, fun hd => ?_, step_keeps_notBoth h⟩
  · rw [step_done_iff h]; simp [hd]
  · rw [← Bool.not_eq_true, step_done_iff h]
    constructor
    · intro hn
      by_contra hcl
      exact hn (.inr ⟨hd, hcl⟩)
    · rintro hcl (hc | ⟨-, hn⟩)
      · exact not_clearsDone_of_completes hc hcl
      · exact hn hcl

/-! ## The level `irq` (R48) -/

/-- `irq` is 0 when DONE and ERR are. -/
theorem irq_eq_false {s : State} (hd : s.blk.done = false) (he : s.blk.err = false) :
    irq s = false := by
  simp [irq, Block.irq, hd, he]

/-- Settles O42: the block after each of the four transactions, read by the level's own definition. -/
theorem irqLevelAndItsClearing : Obligations.IrqLevelAndItsClearing := by
  unfold Obligations.IrqLevelAndItsClearing
  refine ⟨fun s => by simp [irq, Block.irq], fun s rest hr => ⟨?read, ?status, ?ctrl, ?accepted⟩⟩
  case read => exact ⟨_, step_rd hr _ rest (by decide), rfl⟩
  case status =>
    obtain ⟨t, ht, hblk⟩ := step_wr hr 0x014#12 6 rest (by decide)
    have hcleared : t.blk = statusWrite 6 s.blk := by rw [hblk, locate_status]; rfl
    exact ⟨t, ht, irq_eq_false (by simp [hcleared]) (by simp [hcleared])⟩
  case ctrl =>
    obtain ⟨t, ht, hblk⟩ := step_wr hr 0x010#12 0 rest (by decide)
    have hmasked : t.blk = { s.blk with ie := false } := by rw [hblk, locate_ctrl]; rfl
    exact ⟨t, ht, by simp [irq, Block.irq, hmasked], by rw [hmasked], by rw [hmasked]⟩
  case accepted =>
    intro c i hdec hbusy herr hlegal
    have hgood : badOperand s.blk i = false := by simpa [operandsLegal_eq] using hlegal
    obtain ⟨t, ht, hblk⟩ := step_wr hr 0x018#12 c rest (by decide)
    have hcmd : t.blk = afterCmd c s := by rw [hblk, locate_cmd]; rfl
    rw [afterCmd_ok hbusy hdec hgood] at hcmd
    exact ⟨t, ht, irq_eq_false (by rw [hcmd]) (by rw [hcmd]; exact herr)⟩

/-! ## Reset values (R50) -/

/-- The locations whose word no state but the configuration bears on: identification and constant registers, and
the reserved offsets (R26-R36, R72). -/
def Loc.isConstant : Loc → Bool
  | .id | .bitlen | .caps | .nregs | .mod _ | .r2 _ | .reserved => true
  | .ctrl | .status | .cmd | .errinfo | .field _ _ => false

theorem locate_isConstant {off : Off}
    (h : off.toNat < 0x010 ∨ (0x020 ≤ off.toNat ∧ off.toNat < 0x060)) :
    (locate off).isConstant = true := by
  have hctrl : ¬off.toNat = 0x010 := by omega
  have hstatus : ¬off.toNat = 0x014 := by omega
  have hcmd : ¬off.toNat = 0x018 := by omega
  have herrinfo : ¬off.toNat = 0x01C := by omega
  have hfield : ¬(0x100 ≤ off.toNat ∧ off.toNat < 0x200) := by omega
  simp only [locate, hctrl, hstatus, hcmd, herrinfo, hfield, if_false]
  split_ifs <;> rfl

theorem readLoc_isConstant {l : Loc} (h : l.isConstant = true) (cfg : Config) (b c : Block) :
    readLoc cfg b l = readLoc cfg c l := by
  cases l with
  | ctrl | status | cmd | errinfo | field _ _ => cases h
  | id | bitlen | caps | nregs | mod _ | r2 _ | reserved => rfl

/-- The identification and constant registers read the same in every state of a configuration (R26-R36). -/
theorem readAt_constant {s t : State} (hcfg : t.cfg = s.cfg) {off : Off}
    (h : off.toNat < 0x010 ∨ (0x020 ≤ off.toNat ∧ off.toNat < 0x060)) :
    readAt t off = readAt s off := by
  rw [readAt, readAt, hcfg]
  exact readLoc_isConstant (locate_isConstant h) _ _ _

/-- Settles O43: the block after the step is `Block.reset`, whose fields are the values of R50's table. -/
theorem resetValues : Obligations.ResetValues := by
  unfold Obligations.ResetValues
  intro s t e rest hreset hstep
  obtain ⟨u, hu, hcfg, -, -, hblk⟩ := step_cons e rest s
  obtain rfl : u = t := by rw [hu] at hstep; injection hstep
  rw [after_of_resetsNow hreset] at hblk
  have hirq : irq u = false := irq_eq_false (by rw [hblk]; rfl) (by rw [hblk]; rfl)
  rw [hblk]
  exact ⟨Block.reset_readF, rfl, rfl, rfl, rfl, rfl, rfl, rfl, rfl, rfl, rfl, rfl, rfl, rfl, rfl,
    hirq, hcfg, fun _ h => readAt_constant hcfg h⟩

end Sys2Proof.Machine
end

section
/-! PROOFS. The register window: where the field registers are, the reserved and read-only offsets, ill-formed
accesses, the read race (20_memory.md: R73, R74, R76, R92, R208, R227). -/

namespace Sys2Proof.Machine

/-! ## Where the field registers are (R73) -/

/-- A well-formed read at the offset of Fi.wk returns that word (R191, R206). -/
@[simp] theorem readAt_fieldOff (s : State) (i : FReg) (k : WordIdx) :
    readAt s (fieldOff i k) = word (s.blk.readF i) k := by
  rw [readAt, locate_fieldOff, readLoc]

/-- The offset of Fi.wk is a multiple of 4 (R73). -/
theorem fieldOff_aligned (i : FReg) (k : WordIdx) : (fieldOff i k).toNat % 4 = 0 := by
  rw [fieldOff_toNat]; omega

/-- Settles O38: the map of `fieldOff`, the range of the field registers, and the bits of a word. -/
theorem fieldRegisterOffsets : Obligations.FieldRegisterOffsets := by
  unfold Obligations.FieldRegisterOffsets
  exact ⟨locate_fieldOff, fun off hlo hhi _ => locate_field hlo (by omega),
    fun v k _ hj => getLsbD_word v k hj⟩

/-! ## Reserved and read-only offsets (R74) -/

@[simp] theorem locate_errinfo : locate 0x01C#12 = .errinfo := by decide

/-- A write to a constant or reserved location has no effect (R74, R192). -/
theorem writeEffect_isConstant {l : Loc} (h : l.isConstant = true) (v : Word) :
    writeEffect v l = .quiet := by
  cases l with
  | ctrl | status | cmd | errinfo | field _ _ => cases h
  | id | bitlen | caps | nregs | mod _ | r2 _ | reserved => rfl

/-- A well-formed write to a reserved or read-only offset has no effect: ERRINFO, at 0x01C, is read-only, and the
other offsets are those of constants or reserved (R72, R74). -/
theorem writeEffect_readOnly {off : Off} (ha : off.toNat % 4 = 0)
    (h : (0x060 ≤ off.toNat ∧ off.toNat ≤ 0x0FC) ∨ 0x200 ≤ off.toNat ∨ off.toNat ≤ 0x00C ∨
      (0x01C ≤ off.toNat ∧ off.toNat ≤ 0x05C)) (v : Word) :
    writeEffect v (locate off) = .quiet := by
  by_cases herrinfo : off = 0x01C#12
  · rw [herrinfo, locate_errinfo]; rfl
  · have hne : off.toNat ≠ 0x01C := fun e => herrinfo (BitVec.eq_of_toNat_eq e)
    apply writeEffect_isConstant
    by_cases hres : (0x060 ≤ off.toNat ∧ off.toNat ≤ 0x0FC) ∨ 0x200 ≤ off.toNat
    · rw [locate_reserved hres]; rfl
    · exact locate_isConstant (by omega)

/-- Settles O40: a read by `step_rd` at a reserved location, a write by its effect, which is none. -/
theorem reservedAndReadOnlyOffsets : Obligations.ReservedAndReadOnlyOffsets := by
  unfold Obligations.ReservedAndReadOnlyOffsets
  intro s off v rest hr ha
  constructor
  · intro hres
    have hzero : readAt s off = 0 := by rw [readAt, locate_reserved hres]; rfl
    exact ⟨_, step_rd hr off rest ha, congrArg some hzero, rfl⟩
  · intro hro
    obtain ⟨t, ht, hblk⟩ := step_wr hr off v rest ha
    exact ⟨t, ht, by rw [hblk, writeEffect_readOnly ha hro]; rfl⟩

/-! ## Ill-formed accesses (R76, R208, R227) -/

/-- Not well formed: another size than 4, or an offset that is no multiple of 4 (R75). -/
theorem wellFormed_eq_false {off : Off} {size : Nat} (h : size ≠ 4 ∨ off.toNat % 4 ≠ 0) :
    wellFormed off size = false := by
  rw [← Bool.not_eq_true, wellFormed_iff]; omega

/-- The step of an ill-formed transaction in the window, outside reset: BAD_ACCESS is recorded, a read returns 0,
and nothing else of the block changes (R76, R208). -/
theorem step_illFormed {s : State} {x : Txn} {off : Off} (rest : List Event) (hr : s.rstN = true)
    (ho : offsetOf s.cfg x.addr = some off) (hw : wellFormed off x.size = false) :
    step (withEvents (.host x :: rest) s) =
      .next { s with
        blk := raiseError .badAccess (accessInfo off x.size x.dir) 0 s.blk
        inbox := rest
        turn := .host
        rdata := if x.dir = .read then some 0 else none } := by
  cases hd : x.dir with
  | read => simp [perform, hostStep, ho, hr, hd, hostRead, hw]
  | write => simp [perform, hostStep, ho, hr, hd, hostWrite, hw]

/-- Settles O31: `step_illFormed`, with ERRINFO as the number of `accessInfo_eq`. -/
theorem illFormedAccessIsBadAccess : Obligations.IllFormedAccessIsBadAccess := by
  unfold Obligations.IllFormedAccessIsBadAccess
  intro s x off rest hr ho hbad
  exact ⟨_, step_illFormed rest hr ho (wellFormed_eq_false hbad), by rw [accessInfo_eq],
    fun hd => if_pos hd, rfl, rfl⟩

/-! ## The read race (R92) -/

/-- The ENGINE's turn completes the command in flight, outside reset (R205). -/
theorem effect_engine_busy {s : State} (hr : s.rstN = true) (hb : s.blk.busy = true) :
    effect s .engine = .complete := by
  simp [effect, engineEnabled, hr, hb]

/-- The run of one read of a field register word: its word as it stands, and the block unchanged (R83, R206). -/
theorem runEvents_rd_field {s : State} (hr : s.rstN = true) (i : FReg) (k : WordIdx) :
    ∃ t, runEvents [rd s.cfg (fieldOff i k)] s = .next t ∧
      t.rdata = some (word (s.blk.readF i) k) ∧ t.blk = s.blk := by
  have hstep := step_rd hr (fieldOff i k) [] (fieldOff_aligned i k)
  exact ⟨_, (runEvents_cons hstep).trans (runEvents_nil _), congrArg some (readAt_fieldOff s i k), rfl⟩

/-- The run of the ENGINE's turn with a command in flight: F[rd] becomes its result (R205, R207). -/
theorem runEvents_engine_busy {s : State} (hr : s.rstN = true) (hb : s.blk.busy = true) :
    ∃ t, runEvents [.engine] s = .next t ∧ t.cfg = s.cfg ∧ t.rstN = true ∧
      t.blk.readF s.blk.eng.rd = result s.blk.eng.opc s.blk.eng.a s.blk.eng.b := by
  obtain ⟨t, ht, hcfg, hrst, hblk⟩ := runEvents_one .engine s
  rw [effect_engine_busy hr hb] at hrst hblk
  exact ⟨t, ht, hcfg, hrst.trans hr, by simp [hblk, Effect.after]⟩

/-- Settles O54: a read sees F[rd] as it stands, and the ENGINE's turn before it has put the result there. -/
theorem readRaceHasBothOutcomes : Obligations.ReadRaceHasBothOutcomes := by
  unfold Obligations.ReadRaceHasBothOutcomes
  intro s k hr hb
  obtain ⟨t, ht, hold, hkept⟩ := runEvents_rd_field hr s.blk.eng.rd k
  obtain ⟨d, hd, hcfg, hrst, hresult⟩ := runEvents_engine_busy hr hb
  obtain ⟨u, hu, hnew, -⟩ := runEvents_rd_field hrst s.blk.eng.rd k
  rw [hcfg] at hu
  exact ⟨t, u, ht, hold, hkept, (runEvents_append _ hd).trans hu, by rw [hnew, hresult]⟩

end Sys2Proof.Machine
end

section
/-! PROOFS. The decoder's example words, and the rs2 field that a one-operand command ignores (30_encoding.md: R107,
R121). -/

namespace Sys2Proof

/-! ## The decoder -/

/-- Of the configuration the decoder reads EXT_OPS alone (R35, R120). -/
theorem decode_extOps (cfg : Config) : decode cfg = decode ⟨cfg.extOps, 0⟩ := rfl

/-- Settles O1: the nine words, decoded with and without EXT_OPS. -/
theorem specCommandWordsDecode : Obligations.SpecCommandWordsDecode := by
  unfold Obligations.SpecCommandWordsDecode
  intro cfg
  rw [decode_extOps cfg]
  cases cfg.extOps
  case false => decide
  case true => decide

/-! ## The ignored rs2 field (R107) -/

/-- Words that agree under a mask agree on every field the mask covers. -/
theorem extractLsb'_eq_of_and_eq {c d m : Word} (h : c &&& m = d &&& m) {lo n : Nat}
    (hm : m.extractLsb' lo n = BitVec.allOnes n) : c.extractLsb' lo n = d.extractLsb' lo n := by
  have hfield := congrArg (BitVec.extractLsb' lo n) h
  simpa only [BitVec.extractLsb'_and, hm, BitVec.and_allOnes] using hfield

/-- The reserved bits of a word do not lie in its rs2 field (R101, R105). -/
theorem reservedClear_eq_of_and_eq {c d : Word} (h : c &&& 0xFFFF8FFF#32 = d &&& 0xFFFF8FFF#32) :
    reservedClear c = reservedClear d := by
  have hmask : 0xFFFF8880#32 = 0xFFFF8FFF#32 &&& 0xFFFF8880#32 := by decide
  rw [reservedClear, reservedClear, hmask, ← BitVec.and_assoc, h, BitVec.and_assoc]

/-- The opcode map puts rs2 into a command or drops it: a command without rs2 is the same for every rs2 (R103). -/
theorem ofOpcode_of_rs2_eq_none {o : BitVec 4} {rd rs1 rs2 : FReg} {i : Instr}
    (h : ofOpcode o rd rs1 rs2 = some i) (hi : i.rs2 = none) (r : FReg) :
    ofOpcode o rd rs1 r = some i := by
  unfold ofOpcode at h ⊢
  split at h <;> cases h <;> cases hi <;> rfl

/-- A one-operand command decodes the same whatever its rs2 field holds (R107). -/
theorem decode_of_and_eq {cfg : Config} {c d : Word} {i : Instr}
    (hcd : c &&& 0xFFFF8FFF#32 = d &&& 0xFFFF8FFF#32) (h : decode cfg c = some i)
    (hi : i.rs2 = none) : decode cfg d = some i := by
  have hopcode : opcodeField d = opcodeField c := extractLsb'_eq_of_and_eq hcd.symm (by decide)
  have hrd : regField d 4 = regField c 4 :=
    congrArg BitVec.toFin (extractLsb'_eq_of_and_eq hcd.symm (by decide))
  have hrs1 : regField d 8 = regField c 8 :=
    congrArg BitVec.toFin (extractLsb'_eq_of_and_eq hcd.symm (by decide))
  rw [decode, Option.ite_none_right_eq_some] at h ⊢
  obtain ⟨hlegal, hmap⟩ := h
  rw [hopcode, hrd, hrs1, reservedClear_eq_of_and_eq hcd.symm]
  exact ⟨hlegal, ofOpcode_of_rs2_eq_none hmap hi _⟩

/-- The encoding of a one-operand command has 0 in the rs2 field: the seven commands, with every pair of registers
(R107, R110). -/
theorem encode_and_rs2Mask {i : Instr} (hi : i.rs2 = none) : encode i &&& 0x00007000#32 = 0 := by
  cases i with
  | mul _ _ _ | add _ _ _ | sub _ _ _ => cases hi
  | enc rd rs1 | dec rd rs1 | sqr rd rs1 | neg rd rs1 | hlv rd rs1 | dbl rd rs1 | tpl rd rs1 =>
    clear hi
    revert rd rs1
    decide

end Sys2Proof

namespace Sys2Proof.Machine

/-! ## A register that a command does not read has no bearing on its acceptance (R107) -/

/-- The state with `v` in F[r]. -/
def withF (r : FReg) (v : Elem) (s : State) : State := { s with blk := s.blk.writeF r v }

theorem raiseError_writeF (code : ErrCode) (info : Word) (ops : BitVec 2) (b : Block) (r : FReg)
    (v : Elem) :
    raiseError code info ops (b.writeF r v) = (raiseError code info ops b).writeF r v := by
  rw [raiseError, raiseError, Block.writeF_err]
  split <;> rfl

theorem doneCleared_withF (r : FReg) (v : Elem) (s : State) :
    doneCleared (withF r v s) = withF r v (doneCleared s) := rfl

theorem refuseIllegal_withF (r : FReg) (v : Elem) (s : State) :
    refuseIllegal (withF r v s) = withF r v (refuseIllegal s) := by
  simp [refuseIllegal, withF, raiseError_writeF]

theorem refuseRange_withF (bad1 bad2 : Bool) (r : FReg) (v : Elem) (s : State) :
    refuseRange bad1 bad2 (withF r v s) = withF r v (refuseRange bad1 bad2 s) := by
  simp [refuseRange, withF, raiseError_writeF]

theorem latch_withF (o : Op) (rd : FReg) (a b : Elem) (r : FReg) (v : Elem) (s : State) :
    latch o rd a b (withF r v s) = withF r v (latch o rd a b s) := rfl

section OneOperand

variable {i : Instr} {r : FReg} (hi : i.rs2 = none) (hr : r ≠ i.rs1)

include hr in
theorem withF_readF_rs1 (v : Elem) (s : State) :
    (withF r v s).blk.readF i.rs1 = s.blk.readF i.rs1 := s.blk.readF_writeF_ne v hr.symm

include hi in
theorem badRs2_of_rs2_eq_none (b : Block) : badRs2 b i = false := by rw [badRs2, hi]

include hi hr in
theorem operandB_withF (v : Elem) (s : State) :
    operandB (withF r v s).blk i = operandB s.blk i := by
  cases i with
  | mul _ _ _ | add _ _ _ | sub _ _ _ => cases hi
  | sqr _ _ => exact withF_readF_rs1 hr v s
  | enc _ _ | dec _ _ | neg _ _ | hlv _ _ | dbl _ _ | tpl _ _ => rfl

include hi hr in
theorem badOperand_withF (v : Elem) (s : State) :
    badOperand (withF r v s).blk i = badOperand s.blk i := by
  rw [badOperand, badOperand, withF_readF_rs1 hr, badRs2_of_rs2_eq_none hi, badRs2_of_rs2_eq_none hi]

include hi hr in
/-- Each of the four outcomes of acceptance is the same but for F[r] itself (R107). -/
theorem accept_withF (v : Elem) (s : State) :
    accept i (withF r v s) = withF r v (accept i s) := by
  rcases accept_cases i s with ⟨hb, h⟩ | ⟨hb, hw, h⟩ | ⟨hb, hw, ho, h⟩ | ⟨hb, hw, ho, h⟩
  · rw [h, accept_busy (s := withF r v s) hb]
    simp [withF, raiseError_writeF]
  · rw [h, accept_absent (s := withF r v s) hb hw, doneCleared_withF, refuseIllegal_withF]
  · rw [h, accept_range (s := withF r v s) hb hw ((badOperand_withF hi hr v s).trans ho),
      doneCleared_withF, refuseRange_withF, withF_readF_rs1 hr, badRs2_of_rs2_eq_none hi,
      badRs2_of_rs2_eq_none hi]
  · rw [h, accept_ok (s := withF r v s) hb hw ((badOperand_withF hi hr v s).trans ho),
      doneCleared_withF, latch_withF, withF_readF_rs1 hr, operandB_withF hi hr]

include hi hr in
/-- A HOST step with a command does the same but for F[r] itself (R107, R262). -/
theorem exec_withF {s t : State} (hturn : s.turn = .host) (h : exec i s = .next t) (v : Elem) :
    exec i (withF r v s) = .next (withF r v t) := by
  rw [exec_host i hturn] at h
  injection h with h
  have hrst : (withF r v s).rstN = s.rstN := rfl
  rw [exec_host i (s := withF r v s) hturn, hrst, ← h, accept_withF hi hr]
  split <;> rfl

end OneOperand

/-- Settles O5: the decoder by `decode_of_and_eq`, the encoder by `encode_and_rs2Mask`, acceptance by
`exec_withF`. -/
theorem ignoredFieldHasNoEffect : Obligations.IgnoredFieldHasNoEffect := by
  unfold Obligations.IgnoredFieldHasNoEffect
  exact ⟨fun _ _ _ _ => decode_of_and_eq, fun _ => encode_and_rs2Mask,
    fun _ _ _ _ v hturn hi hr h => exec_withF hi hr hturn h v⟩

end Sys2Proof.Machine
end

section
/-! PROOFS. The result function, the laws of the Montgomery commands, and the Montgomery forms of small values
(40_montgomery.md: R131, R136, R139). -/

namespace Sys2Proof.Machine

/-! ## MontMul as the solution of a congruence (R131) -/

/-- R_SQUARED is the square of R mod p (R28). -/
theorem R2_modEq : Rom.R2.toNat ≡ 2 ^ 256 * 2 ^ 256 [MOD Rom.p] := by decide

/-- A number below p that solves the congruence of R131 is the Montgomery product. -/
theorem eq_montMul_toNat {a b : Elem} {r : Nat} (hr : r < Rom.p)
    (h : r * 2 ^ 256 ≡ a.toNat * b.toNat [MOD Rom.p]) : r = (montMul a b).toNat :=
  Nat.ModEq.eq_of_lt_of_lt (cancel_R (h.trans (montMul_mul_R a b).symm)) hr (montMul_lt a b)

/-- An element of [0, p) that solves the congruence of R131 is the Montgomery product. -/
theorem montMul_eq_of_modEq {a b r : Elem} (hr : r.toNat < Rom.p)
    (h : r.toNat * 2 ^ 256 ≡ a.toNat * b.toNat [MOD Rom.p]) : montMul a b = r :=
  (BitVec.eq_of_toNat_eq (eq_montMul_toNat hr h)).symm

/-- ENC multiplies by R mod p (R132). -/
theorem montMul_R2_modEq (a : Elem) :
    (montMul a Rom.R2).toNat ≡ a.toNat * 2 ^ 256 [MOD Rom.p] :=
  cancel_R <| (montMul_mul_R a Rom.R2).trans <| by
    rw [Nat.mul_assoc]; exact R2_modEq.mul_left _

/-- The Montgomery form of an element is its multiple by R, reduced mod p (R132). -/
theorem montMul_R2_toNat (a : Elem) : (montMul a Rom.R2).toNat = a.toNat * 2 ^ 256 % Rom.p := by
  rw [← Nat.mod_eq_of_lt (montMul_lt a _)]
  exact montMul_R2_modEq a

/-- DEC divides by R mod p (R133). -/
theorem montMul_one_mul_R (a : Elem) : (montMul a 1).toNat * 2 ^ 256 ≡ a.toNat [MOD Rom.p] := by
  have h := montMul_mul_R a 1
  rwa [show (1 : Elem).toNat = 1 from ONE_toNat, Nat.mul_one] at h

/-! ## The laws of the Montgomery commands (R136) -/

theorem montMul_montMul_R2_one {a : Elem} (ha : a.toNat < Rom.p) :
    montMul (montMul a Rom.R2) 1 = a :=
  eq_of_modEq (montMul_lt _ _) ha <|
    cancel_R ((montMul_one_mul_R _).trans (montMul_R2_modEq a))

theorem montMul_montMul_one_R2 {a : Elem} (ha : a.toNat < Rom.p) :
    montMul (montMul a 1) Rom.R2 = a :=
  eq_of_modEq (montMul_lt _ _) ha ((montMul_R2_modEq _).trans (montMul_one_mul_R a))

/-- The product of two Montgomery forms is the Montgomery form of the product. -/
theorem montMul_montMul_R2_modEq (a b : Elem) :
    (montMul (montMul a Rom.R2) (montMul b Rom.R2)).toNat ≡
      a.toNat * b.toNat * 2 ^ 256 [MOD Rom.p] :=
  cancel_R <| (montMul_mul_R _ _).trans <| by
    have h := (montMul_R2_modEq a).mul (montMul_R2_modEq b)
    rwa [Nat.mul_mul_mul_comm, ← Nat.mul_assoc] at h

/-- MUL between ENC and DEC is the product mod p. -/
theorem decoded_product_toNat (a b : Elem) :
    (montMul (montMul (montMul a Rom.R2) (montMul b Rom.R2)) 1).toNat =
      a.toNat * b.toNat % Rom.p := by
  rw [← Nat.mod_eq_of_lt (montMul_lt _ 1)]
  exact cancel_R ((montMul_one_mul_R _).trans (montMul_montMul_R2_modEq a b))

theorem montMul_comm (a b : Elem) : montMul a b = montMul b a := by
  rw [montMul, montMul, product, product, Nat.mul_comm]

/-- Both sides, times R twice, are the product of the three operands. -/
theorem montMul_assoc (a b c : Elem) :
    montMul (montMul a b) c = montMul a (montMul b c) := by
  refine montMul_eq_of_modEq (montMul_lt _ _) (cancel_R ?_)
  calc (montMul a (montMul b c)).toNat * 2 ^ 256 * 2 ^ 256
      ≡ a.toNat * (montMul b c).toNat * 2 ^ 256 [MOD Rom.p] := (montMul_mul_R _ _).mul_right _
    _ = a.toNat * ((montMul b c).toNat * 2 ^ 256) := Nat.mul_assoc _ _ _
    _ ≡ a.toNat * (b.toNat * c.toNat) [MOD Rom.p] := (montMul_mul_R b c).mul_left _
    _ = a.toNat * b.toNat * c.toNat := (Nat.mul_assoc _ _ _).symm
    _ ≡ (montMul a b).toNat * 2 ^ 256 * c.toNat [MOD Rom.p] := (montMul_mul_R a b).symm.mul_right _
    _ = (montMul a b).toNat * c.toNat * 2 ^ 256 := Nat.mul_right_comm _ _ _

/-- R mod p, the Montgomery form of 1, is the identity of MUL (R134). -/
theorem montMul_R_mod_p {a : Elem} (ha : a.toNat < Rom.p) :
    montMul a (BitVec.ofNat 256 (2 ^ 256 % Rom.p)) = a := by
  refine montMul_eq_of_modEq ha ?_
  rw [toNat_ofNat_of_lt_p (Nat.mod_lt _ p_pos)]
  exact (Nat.mod_modEq _ _).symm.mul_left _

/-- Settles O55: each law is a congruence mod p from which R has been cancelled. -/
theorem montgomeryLaws : Obligations.MontgomeryLaws := by
  unfold Obligations.MontgomeryLaws
  intro a b c ha hb hc
  exact ⟨montMul_montMul_R2_one ha, montMul_montMul_one_R2 ha, decoded_product_toNat a b, rfl,
    montMul_lt a b, montMul_comm a b, montMul_assoc a b c, montMul_R_mod_p ha⟩

/-! ## The result function (R207) -/

/-- SUB is the residue of the integer difference (R164). -/
theorem modSub_cast_toNat {a b : Elem} (ha : a.toNat < Rom.p) (hb : b.toNat < Rom.p) :
    ((modSub a b).toNat : Int) = (a.toNat - b.toNat : Int) % (Rom.p : Int) := by
  have hwrap : (a.toNat + (Rom.p - b.toNat) : Int) = a.toNat - b.toNat + Rom.p := by omega
  rw [modSub_toNat ha hb, Int.natCast_mod, Nat.cast_add, Nat.cast_sub hb.le, hwrap,
    Int.add_emod_right]

/-- NEG is the residue of the integer negation (R165). -/
theorem modNeg_cast_toNat {a : Elem} (ha : a.toNat < Rom.p) :
    ((modNeg a).toNat : Int) = (-a.toNat : Int) % (Rom.p : Int) := by
  have hwrap : (Rom.p - a.toNat : Int) = -a.toNat + Rom.p := by omega
  rw [modNeg_toNat ha, Int.natCast_mod, Nat.cast_sub ha.le, hwrap, Int.add_emod_right]

/-- HLV is the one number below p whose double is the operand mod p (R166). -/
theorem double_mod_eq_iff_modHlv {a : Elem} (ha : a.toNat < Rom.p) (h : Nat) :
    (h < Rom.p ∧ 2 * h % Rom.p = a.toNat) ↔ h = (modHlv a).toNat := by
  have hodd := p_odd
  rw [modHlv_toNat ha]
  have hdouble (hlt : h < Rom.p) :
      2 * h % Rom.p = if Rom.p ≤ 2 * h then 2 * h - Rom.p else 2 * h := by
    split
    · rw [Nat.mod_eq_sub_mod ‹_›, Nat.mod_eq_of_lt (by omega)]
    · exact Nat.mod_eq_of_lt (by omega)
  constructor
  · rintro ⟨hlt, hres⟩
    rw [hdouble hlt] at hres
    split at hres <;> split <;> omega
  · intro hh
    have hlt : h < Rom.p := by split at hh <;> omega
    rw [hdouble hlt]
    refine ⟨hlt, ?_⟩
    split at hh <;> split <;> omega

/-- Settles O26: MontMul by its congruence, the additive results by the law of each function. -/
theorem resultTable : Obligations.ResultTable := by
  unfold Obligations.ResultTable
  intro a b ha hb
  refine ⟨fun r => ⟨fun ⟨hr, h⟩ => eq_montMul_toNat hr h, ?_⟩, rfl, rfl, rfl, rfl,
    modAdd_toNat ha hb, modSub_cast_toNat ha hb, modNeg_cast_toNat ha, double_mod_eq_iff_modHlv ha,
    modDbl_toNat ha, modTpl_toNat a⟩
  rintro rfl
  exact ⟨montMul_lt a b, montMul_mul_R a b⟩

/-! ## The Montgomery forms of small values (R139) -/

/-- Up to 0xFFFFFFFE the multiple of R mod p is below p, so that it is the Montgomery form itself. -/
theorem montMul_ofNat_R2_toNat {v : Nat} (hv : v ≤ 0xFFFFFFFE) :
    (montMul (BitVec.ofNat 256 v) Rom.R2).toNat = v * (2 ^ 256 % Rom.p) := by
  have hbound : 0xFFFFFFFE * (2 ^ 256 % Rom.p) < Rom.p := by decide
  have hfits : v < 2 ^ 256 := by omega
  rw [montMul_R2_toNat, BitVec.toNat_ofNat, Nat.mod_eq_of_lt hfits, ← Nat.mul_mod_mod]
  exact Nat.mod_eq_of_lt ((Nat.mul_le_mul_right _ hv).trans_lt hbound)

/-- To have the Montgomery form of an element, compute its residue. -/
theorem montMul_R2_eq {a v : Elem} (h : a.toNat * 2 ^ 256 % Rom.p = v.toNat) :
    montMul a Rom.R2 = v :=
  BitVec.eq_of_toNat_eq ((montMul_R2_toNat a).trans h)

/-- Settles O58: each of the seven forms by `montMul_R2_eq`, the rule for small values by
`montMul_ofNat_R2_toNat`. -/
theorem montgomeryFormsOfSmallValues : Obligations.MontgomeryFormsOfSmallValues := by
  unfold Obligations.MontgomeryFormsOfSmallValues
  exact ⟨montMul_R2_eq (by decide), montMul_R2_eq (by decide), montMul_R2_eq (by decide),
    montMul_R2_eq (by decide), montMul_R2_eq (by decide), montMul_R2_eq (by decide),
    montMul_R2_eq (by decide), fun _ => montMul_ofNat_R2_toNat, by decide, by decide⟩

end Sys2Proof.Machine
end

section
/-! PROOFS. The laws of the additive commands, and that MontMul by a fixed factor commutes with each of them
(41_additive.md: R160, R169). -/

namespace Sys2Proof.Machine

/-! ## Results are reduced (R162) -/

theorem modAdd_lt {a b : Elem} (ha : a.toNat < Rom.p) (hb : b.toNat < Rom.p) :
    (modAdd a b).toNat < Rom.p := result_lt .add ha hb

theorem modSub_lt {a b : Elem} (ha : a.toNat < Rom.p) (hb : b.toNat < Rom.p) :
    (modSub a b).toNat < Rom.p := result_lt .sub ha hb

theorem modNeg_lt {a : Elem} (ha : a.toNat < Rom.p) : (modNeg a).toNat < Rom.p :=
  result_lt .neg ha ha

theorem modHlv_lt {a : Elem} (ha : a.toNat < Rom.p) : (modHlv a).toNat < Rom.p :=
  result_lt .hlv ha ha

theorem modDbl_lt {a : Elem} (ha : a.toNat < Rom.p) : (modDbl a).toNat < Rom.p :=
  result_lt .dbl ha ha

theorem modTpl_lt {a : Elem} (ha : a.toNat < Rom.p) : (modTpl a).toNat < Rom.p :=
  result_lt .tpl ha ha

/-! ## ADD, and SUB and NEG by it (R163 - R165) -/

theorem modAdd_modEq {a b : Elem} (ha : a.toNat < Rom.p) (hb : b.toNat < Rom.p) :
    (modAdd a b).toNat ≡ a.toNat + b.toNat [MOD Rom.p] := by
  rw [modAdd_toNat ha hb]; exact Nat.mod_modEq _ _

/-- A number below p that is congruent to the sum is what ADD returns. -/
theorem modAdd_eq_of_modEq {a b r : Elem} (ha : a.toNat < Rom.p) (hb : b.toNat < Rom.p)
    (hr : r.toNat < Rom.p) (h : r.toNat ≡ a.toNat + b.toNat [MOD Rom.p]) : modAdd a b = r :=
  eq_of_modEq (modAdd_lt ha hb) hr ((modAdd_modEq ha hb).trans h.symm)

theorem modAdd_comm (a b : Elem) : modAdd a b = modAdd b a := by
  rw [modAdd, modAdd, Nat.add_comm]

theorem modAdd_zero {a : Elem} (ha : a.toNat < Rom.p) : modAdd a 0 = a :=
  modAdd_eq_of_modEq ha p_pos ha (Nat.ModEq.refl _)

/-- Both sides are congruent to the sum of the three operands. -/
theorem modAdd_assoc {a b c : Elem} (ha : a.toNat < Rom.p) (hb : b.toNat < Rom.p)
    (hc : c.toNat < Rom.p) : modAdd (modAdd a b) c = modAdd a (modAdd b c) := by
  refine modAdd_eq_of_modEq (modAdd_lt ha hb) hc (modAdd_lt ha (modAdd_lt hb hc)) ?_
  calc (modAdd a (modAdd b c)).toNat
      ≡ a.toNat + (modAdd b c).toNat [MOD Rom.p] := modAdd_modEq ha (modAdd_lt hb hc)
    _ ≡ a.toNat + (b.toNat + c.toNat) [MOD Rom.p] := (modAdd_modEq hb hc).add_left _
    _ = a.toNat + b.toNat + c.toNat := (Nat.add_assoc _ _ _).symm
    _ ≡ (modAdd a b).toNat + c.toNat [MOD Rom.p] := (modAdd_modEq ha hb).symm.add_right _

theorem modSub_eq_modAdd_modNeg {a b : Elem} (ha : a.toNat < Rom.p) (hb : b.toNat < Rom.p) :
    modSub a b = modAdd a (modNeg b) := by
  refine (modAdd_eq_of_modEq ha (modNeg_lt hb) (modSub_lt ha hb) ?_).symm
  rw [modSub_toNat ha hb, modNeg_toNat hb]
  exact (Nat.mod_modEq _ _).trans ((Nat.mod_modEq _ _).symm.add_left _)

theorem modNeg_add_modEq {a : Elem} (ha : a.toNat < Rom.p) :
    (modNeg a).toNat + a.toNat ≡ 0 [MOD Rom.p] := by
  calc (modNeg a).toNat + a.toNat
      ≡ Rom.p - a.toNat + a.toNat [MOD Rom.p] := by
        rw [modNeg_toNat ha]; exact (Nat.mod_modEq _ _).add_right _
    _ = Rom.p := Nat.sub_add_cancel ha.le
    _ ≡ 0 [MOD Rom.p] := Nat.mod_self _

/-- The additive inverse mod p is unique: what adds up to 0 with the operand is what NEG returns. -/
theorem modNeg_eq_of_add_modEq {a r : Elem} (ha : a.toNat < Rom.p) (hr : r.toNat < Rom.p)
    (h : r.toNat + a.toNat ≡ 0 [MOD Rom.p]) : modNeg a = r :=
  eq_of_modEq (modNeg_lt ha) hr ((modNeg_add_modEq ha).trans h.symm).add_right_cancel'

theorem modNeg_modNeg {a : Elem} (ha : a.toNat < Rom.p) : modNeg (modNeg a) = a :=
  modNeg_eq_of_add_modEq (modNeg_lt ha) ha (by rw [Nat.add_comm]; exact modNeg_add_modEq ha)

/-! ## DBL, TPL and HLV (R166 - R168) -/

theorem modDbl_eq_modAdd (a : Elem) : modDbl a = modAdd a a := by
  rw [modDbl, modAdd, Nat.two_mul]

theorem modTpl_eq_modAdd_modDbl {a : Elem} (ha : a.toNat < Rom.p) :
    modTpl a = modAdd (modDbl a) a := by
  refine (modAdd_eq_of_modEq (modDbl_lt ha) ha (modTpl_lt ha) ?_).symm
  rw [modTpl_toNat, modDbl_toNat ha]
  calc 3 * a.toNat % Rom.p
      ≡ 3 * a.toNat [MOD Rom.p] := Nat.mod_modEq _ _
    _ = 2 * a.toNat + a.toNat := Nat.succ_mul 2 _
    _ ≡ 2 * a.toNat % Rom.p + a.toNat [MOD Rom.p] := (Nat.mod_modEq _ _).symm.add_right _

theorem modDbl_modHlv {a : Elem} (ha : a.toNat < Rom.p) : modDbl (modHlv a) = a := by
  obtain ⟨hlt, hdouble⟩ := (double_mod_eq_iff_modHlv ha _).2 rfl
  exact BitVec.eq_of_toNat_eq ((modDbl_toNat hlt).trans hdouble)

/-- The operand is the half of its double, because HLV's result is unique. -/
theorem modHlv_modDbl {a : Elem} (ha : a.toNat < Rom.p) : modHlv (modDbl a) = a :=
  BitVec.eq_of_toNat_eq
    ((double_mod_eq_iff_modHlv (modDbl_lt ha) _).1 ⟨ha, (modDbl_toNat ha).symm⟩).symm

/-! ## MontMul by a fixed factor commutes with each command (R160)

ENC is MontMul by R_SQUARED and DEC is MontMul by 1. ADD and NEG are congruences from which R is cancelled; the
other four follow from those two by the laws above. -/

theorem montMul_modAdd {a b : Elem} (ha : a.toNat < Rom.p) (hb : b.toNat < Rom.p) (c : Elem) :
    montMul (modAdd a b) c = modAdd (montMul a c) (montMul b c) := by
  refine (modAdd_eq_of_modEq (montMul_lt a c) (montMul_lt b c) (montMul_lt _ c) (cancel_R ?_)).symm
  calc (montMul (modAdd a b) c).toNat * 2 ^ 256
      ≡ (modAdd a b).toNat * c.toNat [MOD Rom.p] := montMul_mul_R _ _
    _ ≡ (a.toNat + b.toNat) * c.toNat [MOD Rom.p] := (modAdd_modEq ha hb).mul_right _
    _ = a.toNat * c.toNat + b.toNat * c.toNat := Nat.add_mul _ _ _
    _ ≡ (montMul a c).toNat * 2 ^ 256 + (montMul b c).toNat * 2 ^ 256 [MOD Rom.p] :=
        ((montMul_mul_R a c).add (montMul_mul_R b c)).symm
    _ = ((montMul a c).toNat + (montMul b c).toNat) * 2 ^ 256 := (Nat.add_mul _ _ _).symm

theorem montMul_modNeg {a : Elem} (ha : a.toNat < Rom.p) (c : Elem) :
    montMul (modNeg a) c = modNeg (montMul a c) := by
  refine (modNeg_eq_of_add_modEq (montMul_lt a c) (montMul_lt _ c) (cancel_R ?_)).symm
  calc ((montMul (modNeg a) c).toNat + (montMul a c).toNat) * 2 ^ 256
      = (montMul (modNeg a) c).toNat * 2 ^ 256 + (montMul a c).toNat * 2 ^ 256 := Nat.add_mul _ _ _
    _ ≡ (modNeg a).toNat * c.toNat + a.toNat * c.toNat [MOD Rom.p] :=
        (montMul_mul_R _ c).add (montMul_mul_R a c)
    _ = ((modNeg a).toNat + a.toNat) * c.toNat := (Nat.add_mul _ _ _).symm
    _ ≡ 0 * c.toNat [MOD Rom.p] := (modNeg_add_modEq ha).mul_right _
    _ = 0 * 2 ^ 256 := by rw [Nat.zero_mul, Nat.zero_mul]

theorem montMul_modSub {a b : Elem} (ha : a.toNat < Rom.p) (hb : b.toNat < Rom.p) (c : Elem) :
    montMul (modSub a b) c = modSub (montMul a c) (montMul b c) := by
  rw [modSub_eq_modAdd_modNeg ha hb, montMul_modAdd ha (modNeg_lt hb), montMul_modNeg hb,
    modSub_eq_modAdd_modNeg (montMul_lt a c) (montMul_lt b c)]

theorem montMul_modDbl {a : Elem} (ha : a.toNat < Rom.p) (c : Elem) :
    montMul (modDbl a) c = modDbl (montMul a c) := by
  rw [modDbl_eq_modAdd, montMul_modAdd ha ha, ← modDbl_eq_modAdd]

theorem montMul_modTpl {a : Elem} (ha : a.toNat < Rom.p) (c : Elem) :
    montMul (modTpl a) c = modTpl (montMul a c) := by
  rw [modTpl_eq_modAdd_modDbl ha, montMul_modAdd (modDbl_lt ha) ha, montMul_modDbl ha,
    ← modTpl_eq_modAdd_modDbl (montMul_lt a c)]

/-- Halving undoes doubling, and MontMul commutes with doubling. -/
theorem montMul_modHlv {a : Elem} (ha : a.toNat < Rom.p) (c : Elem) :
    montMul (modHlv a) c = modHlv (montMul a c) := by
  calc montMul (modHlv a) c
      = modHlv (modDbl (montMul (modHlv a) c)) := (modHlv_modDbl (montMul_lt _ c)).symm
    _ = modHlv (montMul (modDbl (modHlv a)) c) := by rw [montMul_modDbl (modHlv_lt ha)]
    _ = modHlv (montMul a c) := by rw [modDbl_modHlv ha]

/-- Settles O56: the laws hold as congruences mod p, and DEC, which commutes with each command, undoes ENC. -/
theorem additiveLaws : Obligations.AdditiveLaws := by
  unfold Obligations.AdditiveLaws
  intro a b c ha hb hc
  have hA := montMul_lt a Rom.R2
  have hB := montMul_lt b Rom.R2
  have hdecA := montMul_montMul_R2_one ha
  have hdecB := montMul_montMul_R2_one hb
  refine ⟨⟨modAdd_comm a b, modAdd_assoc ha hb hc, modAdd_zero ha⟩,
    ⟨modSub_eq_modAdd_modNeg ha hb, modNeg_modNeg ha⟩,
    ⟨modDbl_eq_modAdd a, modTpl_eq_modAdd_modDbl ha, modDbl_modHlv ha, modHlv_modDbl ha⟩,
    ⟨modAdd_lt ha hb, modSub_lt ha hb, modNeg_lt ha, modHlv_lt ha, modDbl_lt ha, modTpl_lt ha⟩,
    ?add, ?sub, ?neg, ?hlv, ?dbl, ?tpl⟩
  case add => rw [montMul_modAdd hA hB, hdecA, hdecB]
  case sub => rw [montMul_modSub hA hB, hdecA, hdecB]
  case neg => rw [montMul_modNeg hA, hdecA]
  case hlv => rw [montMul_modHlv hA, hdecA]
  case dbl => rw [montMul_modDbl hA, hdecA]
  case tpl => rw [montMul_modTpl hA, hdecA]

end Sys2Proof.Machine
end

section
/-! PROOFS. Host transactions: the CTRL and STATUS registers, the constants, a field register word, the range check
of a command (42_host_transactions.md: R193, R196-R198, R201, R204, R264). -/

namespace Sys2Proof.Machine

/-! ## CTRL (R196, R264) -/

/-- Settles O35: `ctrlWrite` by its bit 1; a reset block has IE = 0, so the reset wins over bit 0. -/
theorem ctrlWriteSetsIeOrResets : Obligations.CtrlWriteSetsIeOrResets := by
  unfold Obligations.CtrlWriteSetsIeOrResets
  intro s v rest hr
  obtain ⟨t, ht, hcfg, hinbox, hrst, hblk⟩ := step_cons (wr s.cfg 0x010#12 v) rest s
  rw [effect_wr hr _ v (by decide), locate_ctrl] at hrst hblk
  have hctrl : t.blk = ctrlWrite v s.blk := hblk
  refine ⟨t, ht, fun hsrst => ?reset, fun hsrst => ?ie, hcfg, hrst.trans hr, hinbox⟩
  case reset =>
    have hreset : t.blk = Block.reset := by rw [hctrl, ctrlWrite, if_pos hsrst, hardReset_eq]
    exact ⟨hreset, by rw [hreset]; rfl, irq_eq_false (by rw [hreset]; rfl) (by rw [hreset]; rfl)⟩
  case ie => rw [hctrl, ctrlWrite, hsrst]; rfl

/-! ## STATUS (R197, R198) -/

/-- A STATUS write, field by field: bit 1 clears DONE, bit 2 the error record (R198). -/
theorem statusWrite_eq (v : Word) (b : Block) :
    statusWrite v b = { b with
      done := b.done && !v.getLsbD 1
      err := b.err && !v.getLsbD 2
      eovf := b.eovf && !v.getLsbD 2
      ecode := if v.getLsbD 2 then .none else b.ecode
      rangeOps := if v.getLsbD 2 then 0 else b.rangeOps
      errinfo := if v.getLsbD 2 then 0 else b.errinfo } := by
  unfold statusWrite
  cases v.getLsbD 1 <;> cases v.getLsbD 2 <;> simp [clearDone, clearError]

/-- Settles O36: the step is `statusWrite`, and `statusWrite_eq` gives its fields. -/
theorem statusWriteOneToClear : Obligations.StatusWriteOneToClear := by
  unfold Obligations.StatusWriteOneToClear
  intro s v rest hr
  obtain ⟨t, ht, hblk⟩ := step_wr hr 0x014#12 v rest (by decide)
  rw [locate_status] at hblk
  exact ⟨t, ht, hblk.trans (statusWrite_eq v s.blk)⟩

/-- A flag moved to bit n stands at bit n alone (R197). -/
theorem getLsbD_bitWord_shiftLeft (x : Bool) (n : Nat) {j : Nat} (hj : j < 32) :
    (bitWord x <<< n).getLsbD j = (decide (j = n) && x) := by
  rw [bitWord, BitVec.getLsbD_shiftLeft, BitVec.getLsbD_setWidth, BitVec.getLsbD_ofBool]
  by_cases hn : j = n
  · simp [hn]; omega
  · have hne : j < n ∨ j - n ≠ 0 := by omega
    rcases hne with hne | hne <;> simp [hn, hne]

/-- A field of several bits moved to bit n (R197). -/
theorem getLsbD_setWidth_shiftLeft {w : Nat} (x : BitVec w) (n : Nat) {j : Nat} (hj : j < 32) :
    ((x.setWidth 32 : Word) <<< n).getLsbD j = (decide (n ≤ j) && x.getLsbD (j - n)) := by
  have hnot : (!decide (j < n)) = decide (n ≤ j) := by simp [← decide_not]
  have hlt : j - n < 32 := by omega
  simp only [BitVec.getLsbD_shiftLeft, BitVec.getLsbD_setWidth, hj, hlt, hnot, decide_true,
    Bool.true_and]

/-- The bits of a STATUS word, each field in its place (R197). -/
theorem getLsbD_statusWord (b : Block) {j : Nat} (hj : j < 32) :
    (statusWord b).getLsbD j =
      (decide (j = 0) && b.busy || decide (j = 1) && b.done || decide (j = 2) && b.err ||
        decide (j = 3) && b.eovf || decide (4 ≤ j) && b.ecode.code.getLsbD (j - 4) ||
        decide (8 ≤ j) && b.rangeOps.getLsbD (j - 8)) := by
  rw [statusWord, ← BitVec.shiftLeft_zero (bitWord b.busy)]
  simp only [BitVec.getLsbD_or, getLsbD_bitWord_shiftLeft _ _ hj, getLsbD_setWidth_shiftLeft _ _ hj]

/-- From bit 4 up a STATUS word holds ECODE and RANGE_OPS alone (R197). -/
theorem getLsbD_statusWord_of_four_le (b : Block) {j : Nat} (hj : j < 32) (h4 : 4 ≤ j) :
    (statusWord b).getLsbD j =
      (b.ecode.code.getLsbD (j - 4) || decide (8 ≤ j) && b.rangeOps.getLsbD (j - 8)) := by
  have hflag : ∀ n < 4, decide (j = n) = false := fun n hn => decide_eq_false (by omega)
  rw [getLsbD_statusWord b hj, hflag 0 (by decide), hflag 1 (by decide), hflag 2 (by decide),
    hflag 3 (by decide), decide_eq_true h4]
  simp only [Bool.false_and, Bool.false_or, Bool.true_and]

theorem extractLsb'_statusWord_ecode (b : Block) : (statusWord b).extractLsb' 4 4 = b.ecode.code := by
  apply BitVec.eq_of_getLsbD_eq
  intro j hj
  have hlow : ¬8 ≤ 4 + j := by omega
  rw [BitVec.getLsbD_extractLsb', getLsbD_statusWord_of_four_le b (by omega) (by omega)]
  simp [hj, hlow]

theorem extractLsb'_statusWord_rangeOps (b : Block) :
    (statusWord b).extractLsb' 8 2 = b.rangeOps := by
  apply BitVec.eq_of_getLsbD_eq
  intro j hj
  have hcode : b.ecode.code.getLsbD (8 + j - 4) = false := BitVec.getLsbD_of_ge _ _ (by omega)
  rw [BitVec.getLsbD_extractLsb', getLsbD_statusWord_of_four_le b (by omega) (by omega), hcode]
  simp [hj]

theorem extractLsb'_statusWord_upper (b : Block) : (statusWord b).extractLsb' 10 22 = 0#22 := by
  apply BitVec.eq_of_getLsbD_eq
  intro j hj
  have hcode : b.ecode.code.getLsbD (10 + j - 4) = false := BitVec.getLsbD_of_ge _ _ (by omega)
  have hops : b.rangeOps.getLsbD (10 + j - 8) = false := BitVec.getLsbD_of_ge _ _ (by omega)
  rw [BitVec.getLsbD_extractLsb', getLsbD_statusWord_of_four_le b (by omega) (by omega), hcode, hops]
  simp

/-- Settles O37: the read returns the STATUS word by `step_rd`; its fields are those of `getLsbD_statusWord`. -/
theorem statusReadLayout : Obligations.StatusReadLayout := by
  unfold Obligations.StatusReadLayout
  intro s rest hr
  have hword : readAt s 0x014#12 = statusWord s.blk := by rw [readAt, locate_status, readLoc]
  refine ⟨_, statusWord s.blk, step_rd hr _ rest (by decide), rfl, congrArg some hword,
    ?busy, ?done, ?err, ?eovf, extractLsb'_statusWord_ecode _, extractLsb'_statusWord_rangeOps _,
    extractLsb'_statusWord_upper _⟩
  all_goals
    rw [getLsbD_statusWord _ (by decide)]
    simp

/-! ## The constants (R193) -/

/-- Word k of a value as a number (R9). -/
theorem word_toNat (v : Elem) (k : WordIdx) :
    (word v k).toNat = v.toNat / 2 ^ (32 * k.val) % 2 ^ 32 := by
  rw [word, BitVec.extractLsb'_toNat, Nat.shiftRight_eq_div_pow]

/-- The offset of MODk (R72). -/
theorem locate_modOff {off : Off} {k : WordIdx} (h : off.toNat = 0x020 + 4 * k.val) :
    locate off = .mod k := by
  have hoff : off = BitVec.ofNat 12 (0x020 + 4 * k.val) := by
    rw [← h, BitVec.ofNat_toNat, BitVec.setWidth_eq]
  rw [hoff]; clear h hoff; revert k; decide

/-- The offset of R2_k (R72). -/
theorem locate_r2Off {off : Off} {k : WordIdx} (h : off.toNat = 0x040 + 4 * k.val) :
    locate off = .r2 k := by
  have hoff : off = BitVec.ofNat 12 (0x040 + 4 * k.val) := by
    rw [← h, BitVec.ofNat_toNat, BitVec.setWidth_eq]
  rw [hoff]; clear h hoff; revert k; decide

theorem P_toNat : Rom.P.toNat = Rom.p := by decide

/-- R_SQUARED is 2^512 mod p, computed from 2^256 mod p (R28). -/
theorem R2_toNat : Rom.R2.toNat = (2 ^ 256 % Rom.p) * (2 ^ 256 % Rom.p) % Rom.p := by decide

/-- A read of an aligned offset, by the word that stands there: it changes nothing of the block (R83, R191). -/
theorem step_rd_word {s : State} (hr : s.rstN = true) {off : Off} {w : Word} (rest : List Event)
    (ha : off.toNat % 4 = 0) (hw : readAt s off = w) :
    ∃ t, step (withEvents (rd s.cfg off :: rest) s) = .next t ∧ t.rdata = some w ∧ t.blk = s.blk :=
  ⟨_, step_rd hr off rest ha, congrArg some hw, rfl⟩

/-- Settles O39: each offset is located, and the word there is the constant. -/
theorem constantsReadTheSameAlways : Obligations.ConstantsReadTheSameAlways := by
  unfold Obligations.ConstantsReadTheSameAlways
  refine ⟨fun s rest off w hr h => ?_, by decide, by decide, by decide⟩
  rcases h with hid | ⟨k, hoff, hw⟩ | ⟨k, hoff, hw⟩
  · simp only [List.mem_cons, List.not_mem_nil, or_false, Prod.mk.injEq] at hid
    rcases hid with ⟨rfl, rfl⟩ | ⟨rfl, rfl⟩ | ⟨rfl, rfl⟩ | ⟨rfl, rfl⟩ <;>
      exact step_rd_word hr rest (by decide) rfl
  · refine step_rd_word hr rest (by omega) ?_
    rw [readAt, locate_modOff hoff, readLoc]
    exact BitVec.eq_of_toNat_eq (by rw [word_toNat, P_toNat, hw])
  · refine step_rd_word hr rest (by omega) ?_
    rw [readAt, locate_r2Off hoff, readLoc]
    exact BitVec.eq_of_toNat_eq (by rw [word_toNat, R2_toNat, hw])

/-! ## A field register word (R201) -/

/-- The block after a write of Fi.wk (R201). -/
theorem step_wr_field {s : State} (hr : s.rstN = true) (i : FReg) (k : WordIdx) (v : Word)
    (rest : List Event) :
    ∃ t, step (withEvents (wr s.cfg (fieldOff i k) v :: rest) s) = .next t ∧
      t.blk = fieldWrite i k v s.blk := by
  obtain ⟨t, ht, hblk⟩ := step_wr hr (fieldOff i k) v rest (fieldOff_aligned i k)
  rw [locate_fieldOff] at hblk
  exact ⟨t, ht, hblk⟩

/-- A value whose top word is 0xFFFFFFFF is at least p, whose top word is less (R25, R201). -/
theorem p_le_of_word_seven {v : Elem} (h : word v 7 = 0xFFFFFFFF#32) : Rom.p ≤ v.toNat := by
  have htop : v.toNat / 2 ^ 224 % 2 ^ 32 = 0xFFFFFFFF := by
    rw [← show (word v 7).toNat = v.toNat / 2 ^ 224 % 2 ^ 32 from word_toNat v 7, h]; rfl
  have hp : Rom.p ≤ 0xFFFFFFFF * 2 ^ 224 := by decide
  have hv : 0xFFFFFFFF ≤ v.toNat / 2 ^ 224 := htop ▸ Nat.mod_le _ _
  exact hp.trans ((Nat.le_div_iff_mul_le (by decide)).1 hv)

/-- Settles O29: `fieldWrite` by BUSY; idle, the words of `setWord` and the registers of `writeF`; busy, ERRINFO as
the number of `accessInfo_eq`. -/
theorem fieldWordWrite : Obligations.FieldWordWrite := by
  unfold Obligations.FieldWordWrite
  refine ⟨fun s i k v rest hr => ?_, fun v => p_le_of_word_seven⟩
  obtain ⟨t, ht, hblk⟩ := step_wr_field hr i k v rest
  refine ⟨t, ht, fun hidle => ?idle, fun hbusy => ?busy⟩
  case idle =>
    have hwritten : t.blk = s.blk.writeF i (setWord (s.blk.readF i) k v) := by
      rw [hblk, fieldWrite, hidle]; rfl
    rw [hwritten, Block.readF_writeF_same]
    exact ⟨word_setWord_same _ k v, fun _ hk => word_setWord_ne _ v hk,
      fun _ hj => Block.readF_writeF_ne _ _ hj, rfl⟩
  case busy => rw [hblk, fieldWrite, if_pos hbusy, accessInfo_eq, fieldOff_toNat]; rfl

/-! ## The range check (R204) -/

/-- Out of range operands, spelled out (R204). -/
theorem badOperand_iff (b : Block) (i : Instr) :
    badOperand b i = true ↔
      (Rom.p ≤ (b.readF i.rs1).toNat ∨ ∃ r, i.rs2 = some r ∧ Rom.p ≤ (b.readF r).toNat) := by
  rw [badOperand, Bool.or_eq_true, outOfRange_iff, badRs2_iff]

theorem rangeBits_getLsbD_zero (bad1 bad2 : Bool) : (rangeBits bad1 bad2).getLsbD 0 = bad1 := by
  revert bad1 bad2; decide

theorem rangeBits_getLsbD_one (bad1 bad2 : Bool) : (rangeBits bad1 bad2).getLsbD 1 = bad2 := by
  revert bad1 bad2; decide

/-- The command's HOST step outside reset is its acceptance (R202). -/
theorem exec_hostIdle (i : Instr) {s : State} (h : HostIdle s) : exec i s = .next (accept i s) := by
  obtain ⟨hturn, hrst, -⟩ := h
  rw [exec_host i hturn, if_pos hrst]

/-- A command with an operand out of range is refused with RANGE: DONE is cleared, the error recorded, and nothing
else changes (R204, R223). -/
theorem exec_range {i : Instr} {s : State} (h : HostIdle s) (hw : i.wf s.cfg = true)
    (hb : badOperand s.blk i = true) :
    exec i s = .next { s with
      blk := raiseError .range s.blk.cmdrb
        (rangeBits (outOfRange (s.blk.readF i.rs1)) (badRs2 s.blk i))
        { s.blk with done := false } } := by
  have ⟨_, _, hidle⟩ := h
  rw [exec_hostIdle i h, accept_range hidle hw hb]; rfl

/-- A command with legal operands is latched (R202). -/
theorem exec_accepted {i : Instr} {s : State} (h : HostIdle s) (hw : i.wf s.cfg = true)
    (hb : badOperand s.blk i = false) :
    exec i s = .next
      (latch (opOf i) i.rd (s.blk.readF i.rs1) (operandB s.blk i) (doneCleared s)) := by
  have ⟨_, _, hidle⟩ := h
  rw [exec_hostIdle i h, accept_ok hidle hw hb]

/-- MUL, ADD and SUB are the commands that read rs2 (R103, R202). -/
theorem rs2_isSome_iff (i : Instr) :
    i.rs2.isSome = true ↔ opOf i = .mul ∨ opOf i = .add ∨ opOf i = .sub := by
  cases i <;> simp [Instr.rs2, opOf]

/-- Settles O21: `exec_range` and `exec_accepted`; in MUL F0, F3, F3 one register is both operands. -/
theorem rangeCheckAtAcceptance : Obligations.RangeCheckAtAcceptance := by
  unfold Obligations.RangeCheckAtAcceptance
  refine ⟨fun i s h hw hbad => ?refused, fun i s h hw h1 h2 => ?accepted, rs2_isSome_iff, by decide,
    by decide, by decide, fun s h h3 => ?mul⟩
  case refused =>
    refine ⟨_, exec_range h hw ((badOperand_iff _ i).2 hbad), ?_, ?_⟩
    · rw [rangeBits_getLsbD_zero, outOfRange_iff]
    · rw [rangeBits_getLsbD_one, badRs2_iff]
  case accepted =>
    exact ⟨_, exec_accepted h hw ((badOperand_false_iff _ i).2 ⟨h1, h2⟩), rfl, rfl⟩
  case mul =>
    have hout : outOfRange (s.blk.readF 3) = true := (outOfRange_iff _).2 h3
    have hrefused := exec_range (i := .mul 0 3 3) h rfl ((badOperand_iff _ _).2 (.inl h3))
    have hbits : rangeBits (outOfRange (s.blk.readF 3)) (outOfRange (s.blk.readF 3)) = 3 := by
      rw [hout]; decide
    exact hrefused.trans (by rw [← hbits]; rfl)

end Sys2Proof.Machine
end

section
/-! PROOFS. The error record, and what raises each error: the checks of a CMD write, a field register write while
BUSY = 1; that an error does not block (60_exceptions.md: R224-R226, R231, R232, R234). -/

namespace Sys2Proof.Machine

/-! ## A CMD write as a step (R202) -/

/-- The step of a well-formed write at the offset of CMD, outside reset. -/
theorem step_host_cmd {s : State} {x : Txn} (rest : List Event) (hr : s.rstN = true)
    (hd : x.dir = .write) (hsize : x.size = 4) (ho : offsetOf s.cfg x.addr = some 0x018#12) :
    ∃ t, step (withEvents (.host x :: rest) s) = .next t ∧ t.rstN = true ∧
      t.blk = afterCmd x.data s := by
  have hform : wellFormed 0x018#12 4 = true := by decide
  have heffect : effect s (.host x) = .cmd x.data := by
    simp [effect, ho, hr, hd, hsize, hform, writeEffect]
  obtain ⟨t, ht, -, -, hrst, hblk⟩ := step_cons (.host x) rest s
  rw [heffect] at hrst hblk
  exact ⟨t, ht, hrst.trans hr, hblk⟩

/-- The step of `wr 0x018, c`. -/
theorem step_wr_cmd {s : State} (hr : s.rstN = true) (c : Word) (rest : List Event) :
    ∃ t, step (withEvents (wr s.cfg 0x018#12 c :: rest) s) = .next t ∧ t.rstN = true ∧
      t.blk = afterCmd c s :=
  step_host_cmd rest hr rfl rfl (offsetOf_addrOf _ _)

/-- Settles O22: the block is that of `afterCmd_busy`, and recording an error writes the error record alone. -/
theorem commandWhileBusyIsDropped : Obligations.CommandWhileBusyIsDropped := by
  unfold Obligations.CommandWhileBusyIsDropped
  intro s c rest hr hbusy
  obtain ⟨t, ht, -, hblk⟩ := step_wr_cmd hr c rest
  rw [afterCmd_busy hbusy] at hblk
  refine ⟨t, ht, hblk, ?_⟩
  rw [hblk]
  exact ⟨raiseError_eng .., raiseError_f .., (raiseError_busy ..).trans hbusy, raiseError_done ..⟩

/-- Settles O23: the checks one after the other, each with the block it leaves. Of CMD's four byte offsets only
0x018 is a multiple of 4. -/
theorem cmdWriteChecksInOrder : Obligations.CmdWriteChecksInOrder := by
  unfold Obligations.CmdWriteChecksInOrder
  intro s x off rest hr hd ho hlo hhi
  by_cases hill : x.size ≠ 4 ∨ off ≠ 0x018#12
  · have hform : x.size ≠ 4 ∨ off.toNat % 4 ≠ 0 :=
      hill.imp_right fun hne hmod => hne (BitVec.eq_of_toNat_eq (y := 0x018#12) (by simp; omega))
    refine ⟨_, step_illFormed rest hr ho (wellFormed_eq_false hform), ?_⟩
    rw [if_pos hill, hd]
  · obtain ⟨hsize, rfl⟩ : x.size = 4 ∧ off = 0x018#12 := by simpa using hill
    obtain ⟨t, ht, -, hblk⟩ := step_host_cmd rest hr hd hsize ho
    refine ⟨t, ht, ?_⟩
    rw [if_neg hill]
    cases hbusy : s.blk.busy with
    | true => rw [if_pos rfl, hblk, afterCmd_busy hbusy]
    | false =>
      rw [if_neg Bool.false_ne_true]
      cases hdec : decode s.cfg x.data with
      | none => exact hblk.trans (afterCmd_illegal hbusy hdec)
      | some i =>
        simp only [operandsLegal_eq]
        cases hbad : badOperand s.blk i with
        | true => exact hblk.trans (afterCmd_range hbusy hdec hbad)
        | false => rw [if_pos Bool.not_false, hblk, afterCmd_ok hbusy hdec hbad]

/-! ## The error record over a step (R224, R231) -/

/-- Block `c` still holds the error recorded in `b`: its first error's fields are those of `b`, and EOVF has not
fallen (R224). -/
structure RecordKept (b c : Block) : Prop where
  err : c.err = true
  ecode : c.ecode = b.ecode
  rangeOps : c.rangeOps = b.rangeOps
  errinfo : c.errinfo = b.errinfo
  eovf : b.eovf = true → c.eovf = true

/-- The whole error record of `b` is 0 (R231). -/
structure RecordCleared (b : Block) : Prop where
  err : b.err = false
  eovf : b.eovf = false
  ecode : b.ecode = .none
  rangeOps : b.rangeOps = 0
  errinfo : b.errinfo = 0

theorem RecordKept.refl {b : Block} (he : b.err = true) : RecordKept b b :=
  ⟨he, rfl, rfl, rfl, id⟩

/-- A later error sets EOVF alone. -/
theorem raiseError_of_err {b : Block} (he : b.err = true) (code : ErrCode) (info : Word)
    (ops : BitVec 2) : raiseError code info ops b = { b with eovf := true } := if_pos he

/-- The first error is recorded. -/
theorem raiseError_of_not_err {b : Block} (he : b.err = false) (code : ErrCode) (info : Word)
    (ops : BitVec 2) : raiseError code info ops b =
      { b with err := true, ecode := code, rangeOps := ops, errinfo := info } :=
  if_neg (Bool.eq_false_iff.1 he)

theorem raiseError_recordKept {b c : Block} (h : RecordKept b c) (code : ErrCode) (info : Word)
    (ops : BitVec 2) : RecordKept b (raiseError code info ops c) := by
  rw [raiseError_of_err h.err]
  exact ⟨h.err, h.ecode, h.rangeOps, h.errinfo, fun _ => rfl⟩

theorem fieldWrite_recordKept {b : Block} (he : b.err = true) (i : FReg) (k : WordIdx) (v : Word) :
    RecordKept b (fieldWrite i k v b) := by
  unfold fieldWrite
  split
  · exact raiseError_recordKept (.refl he) ..
  · exact ⟨he, rfl, rfl, rfl, id⟩

/-- A CMD write keeps a recorded error, whether the command is accepted (the last case) or raises one of its own. -/
theorem afterCmd_recordKept {s : State} (he : s.blk.err = true) (c : Word) :
    RecordKept s.blk (afterCmd c s) := by
  rcases afterCmd_cases c s with ⟨_, h⟩ | ⟨_, _, h⟩ | ⟨_, _, _, _, h⟩ | ⟨_, _, _, _, h⟩ <;> rw [h]
  case inr.inr.inr => exact ⟨he, rfl, rfl, rfl, id⟩
  all_goals
    apply raiseError_recordKept
    exact ⟨he, rfl, rfl, rfl, id⟩

theorem statusWrite_recordKept {b : Block} (he : b.err = true) {v : Word}
    (hv : v.getLsbD 2 = false) : RecordKept b (statusWrite v b) := by
  rw [statusWrite_eq, hv]
  exact ⟨by simp [he], rfl, rfl, rfl, by simp⟩

/-- An event that is neither a STATUS write with bit 2 = 1 nor a reset keeps a recorded error. -/
theorem after_recordKept {s : State} {e : Event} (he : s.blk.err = true)
    (hc : ¬clearsError s e = true) : RecordKept s.blk ((effect s e).after s) := by
  rw [clearsError_iff] at hc
  cases hx : effect s e with
  | quiet => exact .refl he
  | bad info => exact raiseError_recordKept (.refl he) ..
  | ctrl v =>
    have hv : v.getLsbD 1 = false := by simpa [hx] using hc
    rw [Effect.after, ctrlWrite, hv]
    exact ⟨he, rfl, rfl, rfl, id⟩
  | status v => exact statusWrite_recordKept he (by simpa [hx] using hc)
  | field i k v => exact fieldWrite_recordKept he ..
  | cmd c => exact afterCmd_recordKept he c
  | complete => exact ⟨he, rfl, rfl, rfl, id⟩
  | pin level =>
    have hlevel : level = true := by simpa [hx] using hc
    rw [hlevel]; exact .refl he

theorem reset_recordCleared : RecordCleared Block.reset := ⟨rfl, rfl, rfl, rfl, rfl⟩

theorem statusWrite_recordCleared {v : Word} (hv : v.getLsbD 2 = true) (b : Block) :
    RecordCleared (statusWrite v b) := by
  rw [statusWrite_eq, hv]
  exact ⟨Bool.and_false _, Bool.and_false _, rfl, rfl, rfl⟩

/-- An event that clears the error record leaves all of it 0 (R231). -/
theorem after_recordCleared {s : State} {e : Event} (hc : clearsError s e = true) :
    RecordCleared ((effect s e).after s) := by
  rw [clearsError, Bool.or_eq_true] at hc
  rcases hc with hreset | hstatus
  · rw [after_of_resetsNow hreset]; exact reset_recordCleared
  · split at hstatus
    · next v hw => rw [writesTo_eq hw]; exact statusWrite_recordCleared hstatus s.blk
    · cases hstatus

/-- From ERR = 1 a step keeps the record or, where its event clears it, leaves it 0. -/
theorem step_record {s t : State} (h : step s = .next t) (he : s.blk.err = true) :
    (¬clearsError s (nextEvent s.inbox).1 = true ∧ RecordKept s.blk t.blk) ∨
      (clearsError s (nextEvent s.inbox).1 = true ∧ RecordCleared t.blk) := by
  obtain ⟨-, -, -, hblk⟩ := step_effect h
  rw [hblk]
  by_cases hc : clearsError s (nextEvent s.inbox).1 = true
  · exact .inr ⟨hc, after_recordCleared hc⟩
  · exact .inl ⟨hc, after_recordKept he hc⟩

/-- Settles O27: `raiseError` by ERR; by `step_record`, a step that leaves ERR = 1 has kept the record. -/
theorem firstErrorWins : Obligations.FirstErrorWins := by
  unfold Obligations.FirstErrorWins
  refine ⟨fun code info ops b => ⟨fun he => raiseError_of_not_err he .., fun he =>
    raiseError_of_err he ..⟩, fun s t h he ht => ?_⟩
  rcases step_record h he with ⟨-, kept⟩ | ⟨-, cleared⟩
  · exact ⟨kept.ecode, kept.rangeOps, kept.errinfo, kept.eovf⟩
  · rw [cleared.err] at ht; cases ht

/-- Settles O28: the two cases of `step_record` are told apart by ERR. -/
theorem errorRecordClearing : Obligations.ErrorRecordClearing := by
  unfold Obligations.ErrorRecordClearing
  intro s t h he
  rcases step_record h he with ⟨hc, kept⟩ | ⟨hc, cleared⟩
  · exact ⟨by simp [kept.err, hc], fun h => absurd h hc⟩
  · exact ⟨by simp [cleared.err, hc],
      fun _ => ⟨cleared.eovf, cleared.ecode, cleared.rangeOps, cleared.errinfo⟩⟩

/-! ## Field registers while BUSY = 1 (R226) -/

/-- Settles O30: every aligned offset in the range is a word of a field register, where a busy block drops the
write; a read changes nothing. -/
theorem fieldAccessWhileBusy : Obligations.FieldAccessWhileBusy := by
  unfold Obligations.FieldAccessWhileBusy
  intro s off v rest hr hbusy ha hlo hhi
  obtain ⟨t, ht, hblk⟩ := step_wr hr off v rest ha
  have hwrite : t.blk = fieldWrite (fieldNo off) (wordNo off) v s.blk := by
    rw [hblk, locate_field hlo (by omega)]; rfl
  rw [fieldWrite, if_pos hbusy] at hwrite
  exact ⟨⟨t, _, ht, hwrite, by rw [hwrite, raiseError_f], by rw [hwrite, raiseError_eng]⟩,
    ⟨_, step_rd hr off rest ha, rfl⟩⟩

/-! ## An error does not block (R232) -/

/-- The step of the ENGINE's turn with a command in flight, outside reset (R205). -/
theorem step_engine_busy {s : State} (hr : s.rstN = true) (hb : s.blk.busy = true)
    (rest : List Event) :
    ∃ t, step (withEvents (.engine :: rest) s) = .next t ∧
      t.blk = (complete (scratchIn s.blk.eng.opc s.blk.eng)
        (result s.blk.eng.opc s.blk.eng.a s.blk.eng.b) s).blk := by
  obtain ⟨t, ht, -, -, -, hblk⟩ := step_cons .engine rest s
  rw [effect_engine_busy hr hb] at hblk
  exact ⟨t, ht, hblk⟩

/-- Settles O32: acceptance, completion and the write of a word do not look at ERR, and leave the record. -/
theorem errorDoesNotBlock : Obligations.ErrorDoesNotBlock := by
  unfold Obligations.ErrorDoesNotBlock
  intro s rest hr hidle herr
  refine ⟨fun c i hdec hlegal => ?command, fun i k v => ?field⟩
  case command =>
    have hgood : badOperand s.blk i = false := by simpa [operandsLegal_eq] using hlegal
    obtain ⟨t, ht, hrst, hcmd⟩ := step_wr_cmd hr c rest
    have kept : RecordKept s.blk t.blk := hcmd ▸ afterCmd_recordKept herr c
    rw [afterCmd_ok hidle hdec hgood] at hcmd
    have hbusy : t.blk.busy = true := by rw [hcmd]
    obtain ⟨u, hu, hdone⟩ := step_engine_busy hrst hbusy rest
    refine ⟨t, u, ht, hbusy, kept.err, kept.ecode, kept.errinfo, hu, ?_⟩
    rw [hdone]
    exact ⟨rfl, rfl, by simp [hcmd], kept.err, kept.ecode, kept.errinfo⟩
  case field =>
    obtain ⟨t, ht, hblk⟩ := step_wr_field hr i k v rest
    have kept : RecordKept s.blk t.blk := hblk ▸ fieldWrite_recordKept herr i k v
    refine ⟨t, ht, ?_, kept.err, kept.ecode⟩
    rw [hblk, fieldWrite, hidle, if_neg Bool.false_ne_true, Block.readF_writeF_same, word_setWord_same]

end Sys2Proof.Machine
end

section
/-! PROOFS. The block while `rst_n` is asserted, and the soft reset (70_reset_and_hazards.md: R262, R263). -/

namespace Sys2Proof.Machine

/-! ## While `rst_n` is asserted (R262) -/

/-- `rst_n` is asserted and the block is at its reset values. -/
structure HeldInReset (s : State) : Prop where
  rstN : s.rstN = false
  blk : s.blk = Block.reset

/-- While `rst_n` is asserted a transaction and the ENGINE's turn have no effect (R262). -/
theorem effect_in_reset {s : State} (hr : s.rstN = false) {e : Event} (he : e ≠ .rstN true) :
    effect s e = .quiet ∨ effect s e = .pin false := by
  cases e with
  | host x =>
    left
    cases ho : offsetOf s.cfg x.addr <;> simp [effect, ho, hr]
  | engine => left; simp [effect, engineEnabled, hr]
  | rstN level =>
    cases level with
    | false => exact .inr rfl
    | true => exact absurd rfl he

/-- The step in which the pin goes low, from any state (R261). -/
theorem step_assert_reset (rest : List Event) (s : State) :
    ∃ t, step (withEvents (.rstN false :: rest) s) = .next t ∧ HeldInReset t := by
  obtain ⟨t, ht, -, -, hrst, hblk⟩ := step_cons (.rstN false) rest s
  exact ⟨t, ht, hrst, hblk⟩

/-- Every step but deassertion keeps the block in reset (R262). -/
theorem step_heldInReset {s : State} (hs : HeldInReset s) {e : Event} (he : e ≠ .rstN true)
    (rest : List Event) :
    ∃ t, step (withEvents (e :: rest) s) = .next t ∧ HeldInReset t := by
  obtain ⟨t, ht, -, -, hrst, hblk⟩ := step_cons e rest s
  rcases effect_in_reset hs.rstN he with hquiet | hpin
  · rw [hquiet] at hrst hblk
    exact ⟨t, ht, hrst.trans hs.rstN, hblk.trans hs.blk⟩
  · rw [hpin] at hrst hblk
    exact ⟨t, ht, hrst, hblk⟩

/-- A run without deassertion keeps the block in reset (R262). -/
theorem runEvents_heldInReset {es : List Event} (hes : ∀ e ∈ es, e ≠ .rstN true) {s : State}
    (hs : HeldInReset s) : ∃ t, runEvents es s = .next t ∧ HeldInReset t := by
  induction es generalizing s with
  | nil => exact ⟨_, runEvents_nil s, hs.rstN, hs.blk⟩
  | cons e es ih =>
    obtain ⟨he, hes⟩ := List.forall_mem_cons.1 hes
    obtain ⟨u, hu, hheld⟩ := step_heldInReset hs he es
    rw [runEvents_cons hu]
    exact ih hes hheld

/-- The step of deassertion ends the reset and leaves the block (R262). -/
theorem step_deassert_reset (rest : List Event) (s : State) :
    ∃ t, step (withEvents (.rstN true :: rest) s) = .next t ∧ t.blk = s.blk ∧ t.rstN = true := by
  obtain ⟨t, ht, -, -, hrst, hblk⟩ := step_cons (.rstN true) rest s
  exact ⟨t, ht, hblk, hrst⟩

/-- The step of a read in the window while `rst_n` is asserted returns 0, well formed or not (R262). -/
theorem step_read_in_reset {s : State} (hr : s.rstN = false) {x : Txn} (hd : x.dir = .read)
    {off : Off} (ho : offsetOf s.cfg x.addr = some off) (rest : List Event) :
    step (withEvents (.host x :: rest) s) =
      .next { s with inbox := rest, turn := .host, rdata := some 0 } := by
  simp [perform, hostStep, ho, hr, hostInReset, hd]

/-- Settles O44: assertion puts the block in reset, `runEvents_heldInReset` keeps it there, and deassertion leaves
the block; a read is `step_read_in_reset`. -/
theorem nothingHappensDuringReset : Obligations.NothingHappensDuringReset := by
  unfold Obligations.NothingHappensDuringReset
  refine ⟨fun es s hes => ?held, fun s t x off rest hr hd ho hstep => ?read⟩
  case held =>
    obtain ⟨a, ha, hassert⟩ := step_assert_reset es s
    obtain ⟨t, ht, hheld⟩ := runEvents_heldInReset hes hassert
    obtain ⟨u, hu, hblk, hrst⟩ := step_deassert_reset [] t
    exact ⟨t, u, (runEvents_cons ha).trans ht, hheld.blk, hheld.rstN, hu, hblk.trans hheld.blk, hrst⟩
  case read =>
    rw [step_read_in_reset hr hd ho rest] at hstep
    cases hstep
    exact ⟨rfl, rfl⟩

/-! ## Soft reset (R263) -/

/-- With no command in flight the ENGINE's turn has no effect (R205). -/
theorem effect_engine_idle {s : State} (hb : s.blk.busy = false) : effect s .engine = .quiet := by
  simp [effect, engineEnabled, hb]

/-- The step of the ENGINE's turn with no command in flight leaves the block (R205). -/
theorem step_engine_idle {s : State} (hb : s.blk.busy = false) (rest : List Event) :
    ∃ t, step (withEvents (.engine :: rest) s) = .next t ∧ t.blk = s.blk := by
  obtain ⟨t, ht, -, -, -, hblk⟩ := step_cons .engine rest s
  rw [effect_engine_idle hb] at hblk
  exact ⟨t, ht, hblk⟩

/-- A CTRL write with bit 1 = 1 is a reset of the block, whatever the block holds (R196, R263). -/
theorem ctrlWrite_srst {v : Word} (hv : v.getLsbD 1 = true) (b : Block) :
    ctrlWrite v b = Block.reset := by
  rw [ctrlWrite, if_pos hv, hardReset_eq]

/-- The step of a soft reset, outside hardware reset (R263). -/
theorem step_softReset {s : State} (hr : s.rstN = true) {v : Word} (hv : v.getLsbD 1 = true)
    (rest : List Event) :
    ∃ t, step (withEvents (wr s.cfg 0x010#12 v :: rest) s) = .next t ∧ t.blk = Block.reset := by
  obtain ⟨t, ht, hblk⟩ := step_wr hr 0x010#12 v rest (by decide)
  rw [locate_ctrl] at hblk
  exact ⟨t, ht, hblk.trans (ctrlWrite_srst hv s.blk)⟩

/-- Settles O45: after the soft reset BUSY = 0, so the ENGINE's turn does nothing. Of CTRL's four byte offsets only
0x010 is a multiple of 4, so the other writes are `step_illFormed`. -/
theorem softResetAbortsCommand : Obligations.SoftResetAbortsCommand := by
  unfold Obligations.SoftResetAbortsCommand
  intro s rest hr
  refine ⟨fun v hv => ?reset, fun x off hd ho hlo hhi hill => ?illFormed⟩
  case reset =>
    obtain ⟨t, ht, hreset⟩ := step_softReset hr hv rest
    have hidle : t.blk.busy = false := by rw [hreset, Block.reset_busy]
    obtain ⟨u, hu, hkept⟩ := step_engine_idle hidle rest
    exact ⟨t, u, ht, hreset, hu, hkept.trans hreset⟩
  case illFormed =>
    have hform : x.size ≠ 4 ∨ off.toNat % 4 ≠ 0 :=
      hill.imp_right fun hne hmod => hne (BitVec.eq_of_toNat_eq (y := 0x010#12) (by simp; omega))
    refine ⟨_, step_illFormed rest hr ho (wellFormed_eq_false hform), by rw [hd], ?_⟩
    exact ⟨raiseError_f .., raiseError_ie .., raiseError_busy .., raiseError_eng ..⟩

end Sys2Proof.Machine
end

section
/-! PROOFS. The encoder against the decoder, the words that are Illegal, and the assembler (30_encoding.md: R101,
R103 - R105, R107, R110, R111, R120). -/

namespace Sys2Proof

/-! ## Decode of encode (R101, R110) -/

/-- Every command's encoding has the shape of R101: the law of its own row. -/
theorem encode_shape (i : Instr) : Laws.EncodeShape.Statement i := by
  cases i with
  | enc rd rs1 => exact Laws.EncodeShape.enc rd rs1
  | dec rd rs1 => exact Laws.EncodeShape.dec rd rs1
  | mul rd rs1 rs2 => exact Laws.EncodeShape.mul rd rs1 rs2
  | sqr rd rs1 => exact Laws.EncodeShape.sqr rd rs1
  | add rd rs1 rs2 => exact Laws.EncodeShape.add rd rs1 rs2
  | sub rd rs1 rs2 => exact Laws.EncodeShape.sub rd rs1 rs2
  | neg rd rs1 => exact Laws.EncodeShape.neg rd rs1
  | hlv rd rs1 => exact Laws.EncodeShape.hlv rd rs1
  | dbl rd rs1 => exact Laws.EncodeShape.dbl rd rs1
  | tpl rd rs1 => exact Laws.EncodeShape.tpl rd rs1

/-- CAPS holds the bit of a command's opcode exactly where the command exists (R35, R104). -/
theorem caps_getLsbD_opcode (cfg : Config) (i : Instr) :
    (caps cfg).getLsbD i.opcode.toNat = i.wf cfg := by
  rw [caps]
  cases hext : cfg.extOps <;> cases i <;> simp [Instr.wf, Instr.opcode, hext]

/-- The opcode map undoes the fields of a command (R103). -/
theorem ofOpcode_fields (i : Instr) : ofOpcode i.opcode i.rd i.rs1 (i.rs2.getD 0) = some i := by
  cases i <;> rfl

/-- A command's encoding decodes to the command where the configuration has it, and is Illegal elsewhere (R104,
R120). -/
theorem decode_encode (cfg : Config) (i : Instr) :
    decode cfg (encode i) = if i.wf cfg then some i else none := by
  obtain ⟨hopcode, hrd, hrs1, hrs2, hreserved⟩ := encode_shape i
  rw [decode, hopcode, hrd, hrs1, hrs2, hreserved, caps_getLsbD_opcode, ofOpcode_fields, Bool.true_and]

/-- Settles O2: `decode_encode` for a command that exists. -/
theorem decodeOfEncode : Obligations.DecodeOfEncode := by
  unfold Obligations.DecodeOfEncode
  intro cfg i hw
  rw [decode_encode, if_pos hw]

/-! ## Encode of decode (R107, R120) -/

/-- What a word that decodes to a command is made of. -/
theorem decode_eq_some {cfg : Config} {c : Word} {i : Instr} (h : decode cfg c = some i) :
    c &&& 0xFFFF8880#32 = 0#32 ∧
      ofOpcode (opcodeField c) (regField c 4) (regField c 8) (regField c 12) = some i := by
  rw [decode, Option.ite_none_right_eq_some, Bool.and_eq_true] at h
  obtain ⟨⟨hreserved, -⟩, hmap⟩ := h
  exact ⟨by simpa [reservedClear] using hreserved, hmap⟩

/-- The fields of the command that the opcode map gives are its arguments, but an rs2 the command does not read. -/
theorem fields_of_ofOpcode {o : BitVec 4} {rd rs1 rs2 : FReg} {i : Instr}
    (h : ofOpcode o rd rs1 rs2 = some i) :
    i.opcode = o ∧ i.rd = rd ∧ i.rs1 = rs1 ∧ (i.rs2 = some rs2 ∨ i.rs2 = none) := by
  unfold ofOpcode at h
  split at h <;> cases h
  all_goals
    next hopcode =>
      refine ⟨(BitVec.eq_of_toNat_eq hopcode).symm, rfl, rfl, ?_⟩
      simp [Instr.rs2]

/-- A register field moved back to its place is the word under the field's mask (R101). -/
theorem regField_shiftLeft (c : Word) {lo : Nat} (hlo : lo + 3 ≤ 32) :
    BitVec.ofNat 32 (regField c lo).val <<< lo = c &&& 7#32 <<< lo := by
  have hseven (n : Nat) : (7#32).getLsbD n = decide (n < 3) := by
    have hmask : 7#32 = (BitVec.allOnes 3).setWidth 32 := by decide
    rw [hmask, BitVec.getLsbD_setWidth, BitVec.getLsbD_allOnes]
    by_cases hn : n < 3 <;> simp [hn]; omega
  have hfield (n : Nat) (hn : n < 32) : (BitVec.ofNat 32 (regField c lo).val).getLsbD n =
      (decide (n < 3) && c.getLsbD (lo + n)) := by
    rw [regField, BitVec.val_toFin, BitVec.ofNat_toNat, BitVec.getLsbD_setWidth,
      BitVec.getLsbD_extractLsb']
    simp [hn]
  apply BitVec.eq_of_getLsbD_eq
  intro j hj
  rw [BitVec.getLsbD_and, BitVec.getLsbD_shiftLeft, BitVec.getLsbD_shiftLeft, hseven,
    hfield _ (by omega)]
  by_cases hjlo : j < lo
  · simp [hjlo]
  · rw [show lo + (j - lo) = j by omega, Bool.and_comm (c.getLsbD j)]
    simp only [Bool.and_assoc]

/-- The opcode field is the word under the mask of bits [3:0] (R101). -/
theorem opcodeField_setWidth (c : Word) : (opcodeField c).setWidth 32 = c &&& 0xF#32 := by
  apply BitVec.eq_of_toNat_eq
  have hmask : c.toNat &&& 15 = c.toNat % 2 ^ 4 := Nat.and_two_pow_sub_one_eq_mod _ 4
  simp [opcodeField, hmask]
  omega

/-- A word with its reserved bits 0, under a mask, is put together from what the mask leaves of its fields. -/
theorem and_usedBits_eq_encode {c : Word} {i : Instr} (hreserved : c &&& 0xFFFF8880#32 = 0#32)
    (hopcode : i.opcode = opcodeField c) (hrd : i.rd = regField c 4) (hrs1 : i.rs1 = regField c 8)
    (hrs2 : i.rs2 = some (regField c 12) ∨ i.rs2 = none) :
    c &&& i.usedBits = encode i := by
  rw [encode, hopcode, hrd, hrs1, opcodeField_setWidth, regField_shiftLeft c (by decide),
    regField_shiftLeft c (by decide)]
  rcases hrs2 with hrs2 | hrs2
  · have hmask : 0xFFFFFFFF#32 =
        0xFFFF8880#32 ||| (7#32 <<< 12 ||| 7#32 <<< 8 ||| 7#32 <<< 4 ||| 0xF#32) := by decide
    rw [Instr.usedBits, hrs2, Option.getD_some, regField_shiftLeft c (by decide), Option.isSome_some,
      if_pos rfl, hmask, BitVec.and_or_distrib_left, hreserved]
    simp only [BitVec.and_or_distrib_left, BitVec.zero_or]
  · have hmask : 0xFFFF8FFF#32 = 0xFFFF8880#32 ||| (7#32 <<< 8 ||| 7#32 <<< 4 ||| 0xF#32) := by decide
    have hunused : BitVec.ofNat 32 (Option.getD none (0 : FReg)).val <<< 12 = 0#32 := by decide
    rw [Instr.usedBits, hrs2, hunused, Option.isSome_none, if_neg Bool.false_ne_true, hmask,
      BitVec.and_or_distrib_left, hreserved]
    simp only [BitVec.and_or_distrib_left, BitVec.zero_or]

/-- Settles O3: the command's fields are the word's, and the word is its fields. -/
theorem decodedWordEncodesBack : Obligations.DecodedWordEncodesBack := by
  unfold Obligations.DecodedWordEncodesBack
  intro cfg c i h
  obtain ⟨hreserved, hmap⟩ := decode_eq_some h
  obtain ⟨hopcode, hrd, hrs1, hrs2⟩ := fields_of_ofOpcode hmap
  exact ⟨Machine.wf_of_decode h, and_usedBits_eq_encode hreserved hopcode hrd hrs1 hrs2⟩

/-! ## Illegal words (R104, R105) -/

/-- The legal opcodes: a check of the sixteen opcodes with and without EXT_OPS (R104). -/
theorem caps_getLsbD_iff (cfg : Config) (o : BitVec 4) : (caps cfg).getLsbD o.toNat = true ↔
    (o.toNat ∈ [0, 1, 2, 3, 5, 6, 7] ∨ (o.toNat ∈ [8, 9, 10] ∧ cfg.extOps = true)) := by
  rw [caps]
  cases cfg.extOps with
  | false => revert o; decide
  | true => revert o; decide

/-- The set bits of the reserved mask (R105). -/
theorem reservedMask_getLsbD_iff (k : Nat) :
    (0xFFFF8880#32).getLsbD k = true ↔ k = 7 ∨ k = 11 ∨ (15 ≤ k ∧ k ≤ 31) := by
  by_cases hk : k < 32
  · revert k; decide
  · simp [BitVec.getLsbD_of_ge _ _ (Nat.le_of_not_lt hk)]; omega

/-- A word under a mask is nonzero exactly when it has a bit of the mask. -/
theorem and_ne_zero_iff (c m : Word) :
    c &&& m ≠ 0 ↔ ∃ k, m.getLsbD k = true ∧ c.getLsbD k = true := by
  constructor
  · intro hne
    by_contra hnone
    push Not at hnone
    refine hne (BitVec.eq_of_getLsbD_eq fun k _ => ?_)
    cases hm : m.getLsbD k with
    | false => simp [hm]
    | true => simpa [hm] using hnone k hm
  · rintro ⟨k, hm, hc⟩ hzero
    have hbit := congrArg (fun x : Word => x.getLsbD k) hzero
    simp [hm, hc] at hbit

/-- The opcode map has a command for every legal opcode (R103, R104). -/
theorem ofOpcode_ne_none {cfg : Config} {o : BitVec 4} (h : (caps cfg).getLsbD o.toNat = true)
    (rd rs1 rs2 : FReg) : ofOpcode o rd rs1 rs2 ≠ none := by
  have hlegal := (caps_getLsbD_iff cfg o).1 h
  simp only [List.mem_cons, List.not_mem_nil, or_false] at hlegal
  rcases hlegal with (ho | ho | ho | ho | ho | ho | ho) | ⟨ho | ho | ho, -⟩ <;>
    simp [ofOpcode, ho]

/-- A word is Illegal exactly when a reserved bit is set or its opcode is not legal (R105, R120). -/
theorem decode_eq_none_iff (cfg : Config) (c : Word) : decode cfg c = none ↔
    (c &&& 0xFFFF8880#32 ≠ 0 ∨ (caps cfg).getLsbD (c.extractLsb' 0 4).toNat = false) := by
  change decode cfg c = none ↔
    (c &&& 0xFFFF8880#32 ≠ 0 ∨ (caps cfg).getLsbD (opcodeField c).toNat = false)
  have hreserved : reservedClear c = true ↔ c &&& 0xFFFF8880#32 = 0 := by simp [reservedClear]
  rw [decode, ne_eq, ← hreserved, Bool.not_eq_true]
  cases reservedClear c with
  | false => simp
  | true =>
    cases hopcode : (caps cfg).getLsbD (opcodeField c).toNat with
    | false => simp
    | true => simpa using ofOpcode_ne_none hopcode _ _ _

/-- Settles O4: the opcodes, the reserved bits, the two together, and `accept_absent` for the last clause. -/
theorem illegalWordsAreExactlyTheRest : Obligations.IllegalWordsAreExactlyTheRest := by
  unfold Obligations.IllegalWordsAreExactlyTheRest
  refine ⟨caps_getLsbD_iff, fun c => ?reserved, decode_eq_none_iff, fun i s h hw => ?absent⟩
  case reserved => simp only [and_ne_zero_iff, reservedMask_getLsbD_iff]
  case absent =>
    have ⟨_, _, hidle⟩ := h
    rw [Machine.exec_hostIdle i h, Machine.accept_absent hidle hw]
    rfl

/-! ## The assembler (R110, R111) -/

namespace Machine

/-- The mnemonic table in capitals and in small letters: the ten operations. -/
theorem asmOp_mnemonic (o : Op) : asmOp (o.mnemonic.map upper) = some o ∧
    asmOp ((o.mnemonic.map Char.toLower).map upper) = some o := by
  cases o <;> decide

/-- The register names in capitals and in small letters: the eight registers. -/
theorem asmReg_regName (r : FReg) :
    asmReg (regName r) = some r ∧ asmReg ((regName r).map Char.toLower) = some r := by
  revert r; decide

/-- A command's operands, in the order of R110. -/
theorem asmOperands_eq (i : Instr) :
    asmOperands i = (i.rd :: i.rs1 :: i.rs2.toList).map regName := by
  cases i <;> rfl

/-- A line whose mnemonic and operands are read as those of a command assembles to its encoding. -/
theorem assemble_eq_encode {i : Instr} {mnemonic : List Char} {operands : List (List Char)}
    (hop : asmOp (mnemonic.map upper) = some (opOf i))
    (hregs : operands.map asmReg = (i.rd :: i.rs1 :: i.rs2.toList).map some) :
    assemble mnemonic operands = some (encode i) := by
  rw [assemble, hop, hregs]
  cases i <;> rfl

/-- Settles O6: both spellings of the mnemonic and of the registers are read as what they name. -/
theorem assemblerEncodesWrittenCommands : Obligations.AssemblerEncodesWrittenCommands := by
  unfold Obligations.AssemblerEncodesWrittenCommands
  refine ⟨fun i => assemble_eq_encode (asmOp_mnemonic _).1 ?capitals,
    fun i => assemble_eq_encode (asmOp_mnemonic _).2 ?small⟩
  case capitals =>
    rw [asmOperands_eq, List.map_map]
    exact List.map_congr_left fun r _ => (asmReg_regName r).1
  case small =>
    rw [asmOperands_eq, List.map_map, List.map_map]
    exact List.map_congr_left fun r _ => (asmReg_regName r).2

end Machine

end Sys2Proof
end

section
/-! PROOFS. The invariant of the block: it holds at reset and every step keeps it, part by part (10_state.md,
60_exceptions.md: R40, R41, R43, R203, R223, R229, R262). -/

namespace Sys2Proof.Machine

/-! ## The command in flight (R104, R203, R223) -/

/-- The command that ENG holds exists in the configuration, has operands in [0, p) and the constant its opcode
uses. -/
structure LatchedLegally (cfg : Config) (e : Engine) : Prop where
  operands : e.a.toNat < Rom.p ∧ e.b.toNat < Rom.p
  constants : (e.opc = .enc → e.b = Rom.R2) ∧ (e.opc = .dec → e.b = Rom.ONE) ∧ (e.opc = .sqr → e.b = e.a)
  present : e.instr.wf cfg = true

/-- What `Inv` says of a command in flight. -/
def FlightLegal (cfg : Config) (b : Block) : Prop := b.busy = true → LatchedLegally cfg b.eng

theorem flightLegal_of_idle {cfg : Config} {b : Block} (h : b.busy = false) : FlightLegal cfg b :=
  fun hb => absurd (h.symm.trans hb) Bool.false_ne_true

/-- A block with BUSY and ENG as before has the same command in flight. -/
theorem FlightLegal.of_same {cfg : Config} {b c : Block} (h : FlightLegal cfg b)
    (hbusy : c.busy = b.busy) (heng : c.eng = b.eng) : FlightLegal cfg c :=
  fun hc => heng ▸ h (hbusy ▸ hc)

/-- What ENG.B latches for legal operands is in [0, p) (R203, R204). -/
theorem operandB_lt {b : Block} {i : Instr} (h : badOperand b i = false) :
    (operandB b i).toNat < Rom.p := by
  obtain ⟨h1, h2⟩ := (badOperand_false_iff b i).1 h
  cases i with
  | enc _ _ => exact R2_lt
  | dec _ _ => exact show Rom.ONE.toNat < Rom.p by decide
  | mul _ _ rs2 | add _ _ rs2 | sub _ _ rs2 => exact h2 rs2 rfl
  | sqr _ _ => exact h1
  | neg _ _ | hlv _ _ | dbl _ _ | tpl _ _ => exact p_pos

/-- What acceptance latches is legal (R202, R203). -/
theorem latchedLegally_of_accepted {cfg : Config} {b : Block} {i : Instr} (hw : i.wf cfg = true)
    (h : badOperand b i = false) (t : Wide) :
    LatchedLegally cfg ⟨opOf i, i.rd, b.readF i.rs1, operandB b i, t⟩ where
  operands := ⟨((badOperand_false_iff b i).1 h).1, operandB_lt h⟩
  constants := by cases i <;> simp [opOf, operandB, Instr.rs1]
  present := (wf_of_opOf (opOf_engine _) cfg).trans hw

theorem afterCmd_flightLegal {s : State} (h : FlightLegal s.cfg s.blk) (c : Word) :
    FlightLegal s.cfg (afterCmd c s) := by
  rcases afterCmd_cases c s with ⟨_, hc⟩ | ⟨_, _, hc⟩ | ⟨_, _, _, _, hc⟩ | ⟨i, _, hd, hb, hc⟩ <;> rw [hc]
  case inr.inr.inr => exact fun _ => latchedLegally_of_accepted (wf_of_decode hd) hb _
  all_goals exact h.of_same (raiseError_busy ..) (raiseError_eng ..)

@[simp] theorem statusWrite_eng (v : Word) (b : Block) : (statusWrite v b).eng = b.eng := by
  rw [statusWrite_eq]

@[simp] theorem fieldWrite_eng (i : FReg) (k : WordIdx) (v : Word) (b : Block) :
    (fieldWrite i k v b).eng = b.eng := by
  unfold fieldWrite; split <;> simp

theorem after_flightLegal {s : State} (h : FlightLegal s.cfg s.blk) (x : Effect) :
    FlightLegal s.cfg (x.after s) := by
  cases x with
  | quiet => exact h
  | bad info => exact h.of_same (raiseError_busy ..) (raiseError_eng ..)
  | ctrl v =>
    rw [Effect.after, ctrlWrite]
    split
    · exact flightLegal_of_idle rfl
    · exact h
  | status v => exact h.of_same (statusWrite_busy ..) (statusWrite_eng ..)
  | field i k v => exact h.of_same (fieldWrite_busy ..) (fieldWrite_eng ..)
  | cmd c => exact afterCmd_flightLegal h c
  | complete => exact flightLegal_of_idle rfl
  | pin level =>
    cases level with
    | true => exact h
    | false => exact flightLegal_of_idle rfl

/-! ## The error record (R41, R43, R229) -/

/-- What `Inv` says of the error record. -/
structure RecordConsistent (b : Block) : Prop where
  noError : b.err = false → b.eovf = false ∧ b.ecode = .none ∧ b.rangeOps = 0 ∧ b.errinfo = 0
  anError : b.err = true → b.ecode ≠ .none ∧ (b.rangeOps ≠ 0 ↔ b.ecode = .range)
  accessRecord : b.ecode = .busyWrite ∨ b.ecode = .badAccess → b.errinfo >>> 17 = 0

/-- A code, an info and range bits that an error may be recorded with. -/
structure Recordable (code : ErrCode) (info : Word) (ops : BitVec 2) : Prop where
  isError : code ≠ .none
  rangeOps : ops ≠ 0 ↔ code = .range
  access : code = .busyWrite ∨ code = .badAccess → info >>> 17 = 0

theorem RecordCleared.consistent {b : Block} (h : RecordCleared b) : RecordConsistent b where
  noError _ := ⟨h.eovf, h.ecode, h.rangeOps, h.errinfo⟩
  anError he := absurd (h.err.symm.trans he) Bool.false_ne_true
  accessRecord hcode := by rw [h.ecode] at hcode; rcases hcode with hcode | hcode <;> cases hcode

theorem raiseError_recordConsistent {b : Block} (h : RecordConsistent b) {code : ErrCode} {info : Word}
    {ops : BitVec 2} (hr : Recordable code info ops) :
    RecordConsistent (raiseError code info ops b) := by
  cases he : b.err with
  | true =>
    rw [raiseError_of_err he]
    exact ⟨fun hno => absurd (hno.symm.trans he) Bool.false_ne_true, h.anError, h.accessRecord⟩
  | false =>
    rw [raiseError_of_not_err he]
    exact ⟨fun hno => absurd hno.symm Bool.false_ne_true, fun _ => ⟨hr.isError, hr.rangeOps⟩, hr.access⟩

/-- ERRINFO of an access error has nothing above bit 16 (R43, R228). -/
theorem accessInfo_shiftRight (off : Off) (size : Nat) (d : Dir) : accessInfo off size d >>> 17 = 0 := by
  have hoff := off.isLt
  have hsize : size % 16 < 16 := Nat.mod_lt _ (by decide)
  have hlt : (accessInfo off size d).toNat < 2 ^ 17 := by
    rw [accessInfo_toNat]; split <;> omega
  apply BitVec.eq_of_toNat_eq
  rw [BitVec.toNat_ushiftRight, Nat.shiftRight_eq_div_pow, Nat.div_eq_of_lt hlt]
  rfl

/-- BAD_ACCESS and BUSY_WRITE are recorded with the form of the access (R228). -/
theorem recordable_access {code : ErrCode} (h : code = .busyWrite ∨ code = .badAccess) (off : Off)
    (size : Nat) (d : Dir) : Recordable code (accessInfo off size d) 0 where
  isError := by rcases h with rfl | rfl <;> decide
  rangeOps := by rcases h with rfl | rfl <;> simp
  access _ := accessInfo_shiftRight off size d

/-- RANGE_OPS names an operand when one is out of range (R229). -/
theorem rangeBits_ne_zero {bad1 bad2 : Bool} (h : (bad1 || bad2) = true) : rangeBits bad1 bad2 ≠ 0 := by
  revert bad1 bad2; decide

theorem afterCmd_recordConsistent {s : State} (h : RecordConsistent s.blk) (c : Word) :
    RecordConsistent (afterCmd c s) := by
  have hstored : RecordConsistent { s.blk with cmdrb := c } := ⟨h.noError, h.anError, h.accessRecord⟩
  have hcleared : RecordConsistent (clearDone { s.blk with cmdrb := c }) :=
    ⟨h.noError, h.anError, h.accessRecord⟩
  rcases afterCmd_cases c s with ⟨_, hc⟩ | ⟨_, _, hc⟩ | ⟨_, _, _, hb, hc⟩ | ⟨_, _, _, _, hc⟩ <;> rw [hc]
  · exact raiseError_recordConsistent hstored ⟨by decide, by simp, by simp⟩
  · exact raiseError_recordConsistent hcleared ⟨by decide, by simp, by simp⟩
  · exact raiseError_recordConsistent hcleared
      ⟨by decide, iff_of_true (rangeBits_ne_zero hb) rfl, by simp⟩
  · exact ⟨h.noError, h.anError, h.accessRecord⟩

/-- A transaction has no effect, or is BAD_ACCESS with its own form, or has the effect of a well-formed write (R190). -/
theorem effect_host_cases (s : State) (x : Txn) : effect s (.host x) = .quiet ∨
    (∃ off, effect s (.host x) = .bad (accessInfo off x.size x.dir)) ∨
    ∃ l, effect s (.host x) = writeEffect x.data l := by
  cases ho : offsetOf s.cfg x.addr with
  | none => exact .inl (by simp [effect, ho])
  | some off =>
    by_cases hr : s.rstN = true
    · by_cases hw : wellFormed off x.size = true
      · cases hd : x.dir with
        | read => exact .inl (by simp [effect, ho, hr, hw, hd])
        | write => exact .inr (.inr ⟨locate off, by simp [effect, ho, hr, hw, hd]⟩)
      · exact .inr (.inl ⟨off, by simp [effect, ho, hr, hw]⟩)
    · exact .inl (by simp [effect, ho, hr])

/-- BAD_ACCESS is recorded with the form of an access (R227). -/
theorem effect_eq_bad {s : State} {e : Event} {info : Word} (h : effect s e = .bad info) :
    ∃ off size d, info = accessInfo off size d := by
  cases e with
  | engine => simp only [effect] at h; split at h <;> cases h
  | rstN level => cases h
  | host x =>
    rcases effect_host_cases s x with hx | ⟨off, hx⟩ | ⟨l, hx⟩ <;> rw [hx] at h
    · cases h
    · cases h; exact ⟨off, x.size, x.dir, rfl⟩
    · exact absurd h (writeEffect_ne_bad _ _ _)

theorem statusWrite_recordConsistent {b : Block} (h : RecordConsistent b) (v : Word) :
    RecordConsistent (statusWrite v b) := by
  cases hv : v.getLsbD 2 with
  | true => exact (statusWrite_recordCleared hv b).consistent
  | false =>
    rw [statusWrite_eq, hv]
    simpa using ⟨h.noError, h.anError, h.accessRecord⟩

theorem after_recordConsistent {s : State} (h : RecordConsistent s.blk) (e : Event) :
    RecordConsistent ((effect s e).after s) := by
  cases hx : effect s e with
  | quiet => exact h
  | bad info =>
    obtain ⟨off, size, d, rfl⟩ := effect_eq_bad hx
    exact raiseError_recordConsistent h (recordable_access (.inr rfl) off size d)
  | ctrl v =>
    rw [Effect.after, ctrlWrite]
    split
    · exact reset_recordCleared.consistent
    · exact ⟨h.noError, h.anError, h.accessRecord⟩
  | status v => exact statusWrite_recordConsistent h v
  | field i k v =>
    rw [Effect.after, fieldWrite]
    split
    · exact raiseError_recordConsistent h (recordable_access (.inl rfl) _ 4 .write)
    · exact ⟨h.noError, h.anError, h.accessRecord⟩
  | cmd c => exact afterCmd_recordConsistent h c
  | complete => exact ⟨h.noError, h.anError, h.accessRecord⟩
  | pin level =>
    cases level with
    | true => exact h
    | false => exact reset_recordCleared.consistent

/-! ## While `rst_n` is asserted (R262) -/

/-- While `rst_n` is asserted the block is at its reset values: the clause `inReset` of `Inv`. -/
def ResetHeld (s : State) : Prop := s.rstN = false → s.blk = Block.reset

theorem resetHeld_of_rstN {s : State} (h : s.rstN = true) : ResetHeld s :=
  fun hr => absurd (hr.symm.trans h) Bool.false_ne_true

/-- An event after which `rst_n` is asserted has asserted it, or has had no effect in reset. -/
theorem after_resetHeld {s : State} (h : ResetHeld s) {e : Event} (hr : (effect s e).rstN s = false) :
    (effect s e).after s = Block.reset := by
  by_cases he : e = .rstN true
  · subst he; cases hr
  · cases hs : s.rstN with
    | false =>
      rcases effect_in_reset hs he with hquiet | hpin
      · rw [hquiet]; exact h hs
      · rw [hpin]; rfl
    | true =>
      cases hx : effect s e <;> rw [hx] at hr
      case pin level => cases hr; rfl
      all_goals exact absurd (hr.symm.trans hs) Bool.false_ne_true

theorem step_resetHeld {s t : State} (h : ResetHeld s) (hstep : step s = .next t) : ResetHeld t := by
  obtain ⟨-, -, hrst, hblk⟩ := step_effect hstep
  exact fun hr => hblk.trans (after_resetHeld h (hrst.symm.trans hr))

/-! ## The whole invariant -/

/-- `Inv` is its four parts. -/
theorem inv_iff (s : State) : Inv s ↔ FlightLegal s.cfg s.blk ∧
    ¬(s.blk.busy = true ∧ s.blk.done = true) ∧ RecordConsistent s.blk ∧ ResetHeld s := by
  constructor
  · intro h
    exact ⟨fun hb => ⟨h.operands hb, h.constants hb, h.present hb⟩, h.notBoth,
      ⟨h.noError, h.anError, h.accessRecord⟩, h.inReset⟩
  · rintro ⟨flight, notBoth, record, held⟩
    exact ⟨fun hb => (flight hb).operands, fun hb => (flight hb).constants,
      fun hb => (flight hb).present, notBoth, record.noError, record.anError, record.accessRecord, held⟩

/-- Settles O49: each of the four parts is kept by a step. -/
theorem everyStepKeepsInv : Obligations.EveryStepKeepsInv := by
  unfold Obligations.EveryStepKeepsInv
  intro s t hinv hstep
  obtain ⟨flight, notBoth, record, held⟩ := (inv_iff s).1 hinv
  obtain ⟨hcfg, -, -, hblk⟩ := step_effect hstep
  refine (inv_iff t).2 ⟨?_, step_keeps_notBoth hstep notBoth, ?_, step_resetHeld held hstep⟩
  · rw [hcfg, hblk]; exact after_flightLegal flight _
  · rw [hblk]; exact after_recordConsistent record _

/-- A state at reset values meets the invariant. -/
theorem inv_of_reset {s : State} (h : s.blk = Block.reset) : Inv s := by
  refine (inv_iff s).2 ⟨?_, ?_, ?_, fun _ => h⟩ <;> rw [h]
  · exact flightLegal_of_idle rfl
  · exact fun hboth => absurd hboth.1 Bool.false_ne_true
  · exact reset_recordCleared.consistent

/-- Settles O50: in every configuration the block of the reset state is `Block.reset`. -/
theorem resetMeetsInv : Obligations.ResetMeetsInv := by
  unfold Obligations.ResetMeetsInv
  exact ⟨inv_of_reset rfl, fun _ => inv_of_reset rfl⟩

end Sys2Proof.Machine
end

section
/-! PROOFS. The hidden engine state is not observable: what a step shows and what it leaves visible are functions of
what was visible before (10_state.md: R46, R47). -/

namespace Sys2Proof.Machine

/-! ## What a transaction reads is visible (R47) -/

/-- No location reads what `Block.visible` takes out. -/
theorem readLoc_visible (cfg : Config) (b : Block) (l : Loc) :
    readLoc cfg b.visible l = readLoc cfg b l := by
  cases l <;> rfl

theorem irq_visible (b : Block) : b.visible.irq = b.irq := rfl

theorem SameVisible.readAt_eq {s t : State} (h : SameVisible s t) (off : Off) :
    readAt s off = readAt t off := by
  obtain ⟨hcfg, hvis, -⟩ := h
  rw [readAt, readAt, ← readLoc_visible, ← readLoc_visible t.cfg, hcfg, hvis]

theorem SameVisible.irq_eq {s t : State} (h : SameVisible s t) : irq s = irq t := by
  obtain ⟨-, hvis, -⟩ := h
  rw [irq, irq, ← irq_visible, ← irq_visible t.blk, hvis]

/-! ## The read data of a step -/

/-- The read data that performing an event leaves in `rdata` (R191, R208, R262). -/
def readData (s : State) : Event → Option Word
  | .host x =>
    match offsetOf s.cfg x.addr, x.dir with
    | some off, .read => some (if s.rstN && wellFormed off x.size then readAt s off else 0)
    | _, _ => none
  | .engine => none
  | .rstN _ => none

/-- Performing an event with no read data standing leaves that of `readData`. -/
theorem perform_rdata {e : Event} {s t : State} (h : perform e s = .next t) (hs : s.rdata = none) :
    t.rdata = readData s e := by
  cases e with
  | engine =>
    have hexec : exec s.blk.eng.instr { s with turn := .engine } = .next t := h
    rw [exec_engine _ rfl] at hexec
    injection hexec with ht
    rw [← ht]
    split <;> exact hs
  | rstN level =>
    injection h with ht
    rw [← ht]
    cases level <;> exact hs
  | host x =>
    simp only [perform, hostStep] at h
    rw [readData]
    cases ho : offsetOf s.cfg x.addr with
    | none => rw [ho] at h; cases h; exact hs
    | some off =>
      simp only [ho] at h
      by_cases hr : s.rstN = true
      · simp only [if_pos hr] at h
        cases hd : x.dir with
        | read =>
          simp only [hd] at h
          injection h with ht
          rw [← ht, hostRead]
          split
          · next hw => simp [hr, hw, readAt]
          · next hw => simp [hw]
        | write =>
          simp only [hd] at h
          obtain ⟨u, hu, -, -, -, hrdata, -⟩ :=
            hostWrite_effect off x.size x.data { s with turn := .host } hr rfl
          rw [hu] at h
          cases h
          exact hrdata.trans hs
      · simp only [if_neg hr] at h
        injection h with ht
        rw [← ht]
        cases hd : x.dir <;> simp [hostInReset, hd, hs, hr]

/-- The read data of a step. -/
theorem step_rdata {s t : State} (h : step s = .next t) :
    t.rdata = readData s (nextEvent s.inbox).1 :=
  perform_rdata (s := popped s) h rfl

theorem SameVisible.readData_eq {s t : State} (h : SameVisible s t) (e : Event) :
    readData s e = readData t e := by
  have ⟨hcfg, _, hrst, _⟩ := h
  cases e with
  | host x => simp only [readData, hcfg, hrst, h.readAt_eq]
  | engine | rstN level => rfl

/-! ## The block after a step -/

theorem SameVisible.busy_eq {s t : State} (h : SameVisible s t) : s.blk.busy = t.blk.busy := by
  obtain ⟨-, hvis, -⟩ := h
  change s.blk.visible.busy = t.blk.visible.busy
  rw [hvis]

theorem SameVisible.effect_eq {s t : State} (h : SameVisible s t) (e : Event) :
    effect s e = effect t e := by
  have ⟨hcfg, _, hrst, _⟩ := h
  cases e with
  | engine =>
    have henabled : engineEnabled s = engineEnabled t := by
      rw [engineEnabled, engineEnabled, h.busy_eq, hrst]
    simp only [effect, henabled]
  | rstN level => rfl
  | host x => simp only [effect, hcfg, hrst]

/-- Only a command in flight completes (R205). -/
theorem busy_of_effect_complete {s : State} {e : Event} (h : effect s e = .complete) :
    s.blk.busy = true := by
  have hc := (completesCommand_eq s e).2 h
  simp only [completesCommand, engineEnabled, Bool.and_eq_true] at hc
  obtain ⟨-, hbusy, -⟩ := hc
  exact hbusy

/-- An operation on the block that commutes with taking out the hidden state keeps blocks alike. -/
theorem visible_congr {f : Block → Block} (hf : ∀ b, f b.visible = (f b).visible) {b c : Block}
    (h : b.visible = c.visible) : (f b).visible = (f c).visible := by
  rw [← hf b, ← hf c, h]

theorem raiseError_visible (code : ErrCode) (info : Word) (ops : BitVec 2) (b : Block) :
    raiseError code info ops b.visible = (raiseError code info ops b).visible := by
  cases he : b.err with
  | true => rw [raiseError_of_err he, raiseError_of_err (b := b.visible) he]; rfl
  | false => rw [raiseError_of_not_err he, raiseError_of_not_err (b := b.visible) he]; rfl

theorem statusWrite_visible (v : Word) (b : Block) :
    statusWrite v b.visible = (statusWrite v b).visible := by
  rw [statusWrite_eq, statusWrite_eq]; rfl

theorem ctrlWrite_visible (v : Word) (b : Block) :
    ctrlWrite v b.visible = (ctrlWrite v b).visible := by
  unfold ctrlWrite; split <;> rfl

theorem fieldWrite_visible (i : FReg) (k : WordIdx) (v : Word) (b : Block) :
    fieldWrite i k v b.visible = (fieldWrite i k v b).visible := by
  cases hb : b.busy with
  | true =>
    rw [fieldWrite, if_pos (show b.visible.busy = true from hb), fieldWrite, if_pos hb,
      raiseError_visible]
  | false =>
    have hidle : ¬b.busy = true := Bool.eq_false_iff.1 hb
    rw [fieldWrite, if_neg (show ¬b.visible.busy = true from hidle), fieldWrite, if_neg hidle]; rfl

theorem badOperand_visible (b : Block) (i : Instr) : badOperand b.visible i = badOperand b i := rfl

/-- What an accepted command leaves visible: its operands come from field registers and constants (R203). -/
theorem accepted_visible (c : Word) (i : Instr) (b : Block) (t : Wide) :
    ({ b with cmdrb := c, done := false, busy := true,
              eng := ⟨opOf i, i.rd, b.readF i.rs1, operandB b i, t⟩ } : Block).visible =
      { b.visible with cmdrb := c, done := false, busy := true,
                       eng := ⟨opOf i, i.rd, b.visible.readF i.rs1, operandB b.visible i, 0⟩ } := by
  cases i <;> rfl

theorem SameVisible.afterCmd_visible {s t : State} (h : SameVisible s t) (c : Word) :
    (afterCmd c s).visible = (afterCmd c t).visible := by
  have ⟨hcfg, hvis, _⟩ := h
  have hbusy := h.busy_eq
  have hstored : ({ s.blk with cmdrb := c } : Block).visible = ({ t.blk with cmdrb := c } : Block).visible :=
    visible_congr (f := fun b => { b with cmdrb := c }) (fun _ => rfl) hvis
  have hcleared := visible_congr (f := clearDone) (fun _ => rfl) hstored
  have hbad (i : Instr) : badOperand s.blk i = badOperand t.blk i := by
    rw [← badOperand_visible, hvis, badOperand_visible]
  cases hb : s.blk.busy with
  | true =>
    rw [afterCmd_busy hb, afterCmd_busy (hbusy.symm.trans hb)]
    exact visible_congr (raiseError_visible _ _ _) hstored
  | false =>
    have hb' := hbusy.symm.trans hb
    cases hd : decode s.cfg c with
    | none =>
      rw [afterCmd_illegal hb hd, afterCmd_illegal hb' (hcfg ▸ hd)]
      exact visible_congr (raiseError_visible _ _ _) hcleared
    | some i =>
      cases hl : badOperand s.blk i with
      | true =>
        have hf : ∀ b : Block, rangeBits (outOfRange (b.visible.readF i.rs1)) (badRs2 b.visible i) =
            rangeBits (outOfRange (b.readF i.rs1)) (badRs2 b i) := fun _ => rfl
        rw [afterCmd_range hb hd hl, afterCmd_range hb' (hcfg ▸ hd) ((hbad i).symm.trans hl),
          ← hf s.blk, hvis, hf t.blk]
        exact visible_congr (raiseError_visible _ _ _) hcleared
      | false =>
        rw [afterCmd_ok hb hd hl, afterCmd_ok hb' (hcfg ▸ hd) ((hbad i).symm.trans hl),
          accepted_visible, accepted_visible, hvis]

/-- What completion leaves visible is computed from what ENG showed while BUSY = 1 (R205). -/
theorem complete_visible {s : State} (hb : s.blk.busy = true) :
    (Effect.complete.after s).visible =
      { s.blk.visible.writeF s.blk.visible.eng.rd
          (result s.blk.visible.eng.opc s.blk.visible.eng.a s.blk.visible.eng.b) with
        busy := false, done := true, eng := Block.reset.eng } := by
  have heng : s.blk.visible.eng = { s.blk.eng with t := 0 } := if_pos hb
  rw [heng]; rfl

/-- An event has the same effect on blocks that look alike, and leaves them alike. -/
theorem SameVisible.after_visible {s t : State} (h : SameVisible s t) (e : Event) :
    ((effect s e).after s).visible = ((effect s e).after t).visible := by
  have ⟨_, hvis, _⟩ := h
  cases hx : effect s e with
  | quiet => exact hvis
  | bad info => exact visible_congr (raiseError_visible _ _ _) hvis
  | ctrl v => exact visible_congr (ctrlWrite_visible v) hvis
  | status v => exact visible_congr (statusWrite_visible v) hvis
  | field i k v => exact visible_congr (fieldWrite_visible i k v) hvis
  | cmd c => exact h.afterCmd_visible c
  | complete =>
    have hb := busy_of_effect_complete hx
    rw [complete_visible hb, complete_visible (h.busy_eq.symm.trans hb), hvis]
  | pin level =>
    cases level with
    | true => exact hvis
    | false => rfl

/-- Settles O51: the two steps have the same effect, which leaves the blocks alike, and show the same. -/
theorem hiddenStateIsNotObservable : Obligations.HiddenStateIsNotObservable := by
  unfold Obligations.HiddenStateIsNotObservable
  intro s s' t h hstep
  have ⟨hcfg, _, hrst, _, hinbox⟩ := h
  obtain ⟨t', hstep'⟩ := step_next s'
  obtain ⟨hc, hi, hr, hb⟩ := step_effect hstep
  obtain ⟨hc', hi', hr', hb'⟩ := step_effect hstep'
  have hrdata := step_rdata hstep'
  rw [← hinbox, ← h.effect_eq] at hr' hb'
  rw [← hinbox] at hi' hrdata
  have hsame : SameVisible t t' := by
    refine ⟨by rw [hc, hc', hcfg], ?_, by rw [hr, hr', rstN_congr hrst], ?_, by rw [hi, hi']⟩
    · rw [hb, hb', h.after_visible]
    · rw [step_rdata hstep, hrdata, h.readData_eq]
  exact ⟨t', hstep', hsame, hsame.irq_eq, hsame.readAt_eq⟩

end Sys2Proof.Machine
end

section
/-! PROOFS. The two steps of a command: what acceptance latches, what completion writes, and what neither changes
(40_montgomery.md, 41_additive.md, 42_host_transactions.md: R49, R132 - R135, R163 - R168, R202, R203, R205). -/

namespace Sys2Proof.Machine

/-! ## Acceptance, then completion (R202, R205) -/

/-- The state that the acceptance of `i` on legal operands leaves (R202). -/
def acceptedState (i : Instr) (s : State) : State :=
  latch (opOf i) i.rd (s.blk.readF i.rs1) (operandB s.blk i) (doneCleared s)

theorem acceptedState_accepted (i : Instr) (s : State) :
    Accepted i (s.blk.readF i.rs1) (operandB s.blk i) s (acceptedState i s) := rfl

/-- The ENGINE's turn of `exec` where its step is enabled: the result goes to F[ENG.RD] (R205). -/
theorem exec_completed {i : Instr} {s : State} (hturn : s.turn = .engine) (hb : s.blk.busy = true)
    (hr : s.rstN = true) :
    ∃ t, exec i s = .next t ∧ Completed s.blk.eng.rd (result (opOf i) s.blk.eng.a s.blk.eng.b) s t := by
  refine ⟨_, exec_engine i hturn, ?_⟩
  rw [engineEnabled, hb, hr]
  rfl

/-- The two steps of a command that exists, on legal operands, from an idle block. -/
theorem exec_accept_complete {i : Instr} {s : State} (h : HostIdle s) (hw : i.wf s.cfg = true)
    (hb : badOperand s.blk i = false) :
    ∃ s2, exec i s = .next (acceptedState i s) ∧ exec i (engineTurn (acceptedState i s)) = .next s2 ∧
      Completed i.rd (result (opOf i) (s.blk.readF i.rs1) (operandB s.blk i))
        (engineTurn (acceptedState i s)) s2 := by
  have ⟨_, hrst, _⟩ := h
  obtain ⟨s2, hexec, hdone⟩ := exec_completed (i := i) (s := engineTurn (acceptedState i s)) rfl rfl hrst
  exact ⟨s2, exec_accepted h hw hb, hexec, hdone⟩

/-- The form in which the ten commands are stated: the value written has the property `P` that the result has. -/
theorem exec_writes {i : Instr} {s : State} (h : HostIdle s) (hw : i.wf s.cfg = true)
    (hb : badOperand s.blk i = false) {P : Elem → Prop}
    (hP : P (result (opOf i) (s.blk.readF i.rs1) (operandB s.blk i))) :
    ∃ s1 s2 v, exec i s = .next s1 ∧ Accepted i (s.blk.readF i.rs1) (operandB s.blk i) s s1 ∧
      exec i (engineTurn s1) = .next s2 ∧ Completed i.rd v (engineTurn s1) s2 ∧ P v := by
  obtain ⟨s2, hexec, hexec2, hdone⟩ := exec_accept_complete h hw hb
  exact ⟨_, s2, _, hexec, acceptedState_accepted i s, hexec2, hdone, hP⟩

/-- One operand, in [0, p). -/
theorem badOperand_one {b : Block} {i : Instr} (hi : i.rs2 = none) (h : (b.readF i.rs1).toNat < Rom.p) :
    badOperand b i = false :=
  (badOperand_false_iff b i).2 ⟨h, fun r hr => by rw [hi] at hr; cases hr⟩

/-- Two operands, both in [0, p). -/
theorem badOperand_two {b : Block} {i : Instr} {rs2 : FReg} (hi : i.rs2 = some rs2)
    (h1 : (b.readF i.rs1).toNat < Rom.p) (h2 : (b.readF rs2).toNat < Rom.p) : badOperand b i = false :=
  (badOperand_false_iff b i).2 ⟨h1, fun r hr => by rw [hi] at hr; cases hr; exact h2⟩

/-! ## The Montgomery commands (R132 - R135) -/

/-- The Montgomery product solves its congruence in [0, p) (R131). -/
theorem montMul_spec (a b : Elem) : (montMul a b).toNat < Rom.p ∧
    (montMul a b).toNat * 2 ^ 256 % Rom.p = a.toNat * b.toNat % Rom.p :=
  ⟨montMul_lt a b, montMul_mul_R a b⟩

/-- The Montgomery form of what DEC gives is its operand (R133). -/
theorem montMul_one_spec {a : Elem} (ha : a.toNat < Rom.p) : (montMul a 1).toNat < Rom.p ∧
    (montMul a 1).toNat * 2 ^ 256 % Rom.p = a.toNat := by
  have hres : (montMul a 1).toNat * 2 ^ 256 % Rom.p = a.toNat % Rom.p := montMul_one_mul_R a
  rw [Nat.mod_eq_of_lt ha] at hres
  exact ⟨montMul_lt a 1, hres⟩

/-- Settles O10: ENG.B is R_SQUARED, and MontMul by it multiplies by R. -/
theorem encWritesMontgomeryForm : Obligations.EncWritesMontgomeryForm := by
  unfold Obligations.EncWritesMontgomeryForm
  intro rd rs1 s h ha
  exact exec_writes (i := .enc rd rs1) h rfl (badOperand_one rfl ha) (montMul_R2_toNat _)

/-- Settles O11: ENG.B is 1, and MontMul by it divides by R. -/
theorem decWritesNormalForm : Obligations.DecWritesNormalForm := by
  unfold Obligations.DecWritesNormalForm
  intro rd rs1 s h ha
  exact exec_writes (i := .dec rd rs1) h rfl (badOperand_one rfl ha) (montMul_one_spec ha)

/-- Settles O12: the result is the Montgomery product of the two operands. -/
theorem mulWritesMontgomeryProduct : Obligations.MulWritesMontgomeryProduct := by
  unfold Obligations.MulWritesMontgomeryProduct
  intro rd rs1 rs2 s h ha hb
  exact exec_writes (i := .mul rd rs1 rs2) h rfl (badOperand_two rfl ha hb) (montMul_spec _ _)

/-- Settles O13: the result is the Montgomery product of the operand with itself. -/
theorem sqrWritesMontgomerySquare : Obligations.SqrWritesMontgomerySquare := by
  unfold Obligations.SqrWritesMontgomerySquare
  intro rd rs1 s h ha
  exact exec_writes (i := .sqr rd rs1) h rfl (badOperand_one rfl ha) (montMul_spec _ _)

/-! ## The additive commands (R163 - R168) -/

/-- Settles O14, by the value of `modAdd`. -/
theorem addWritesSumModP : Obligations.AddWritesSumModP := by
  unfold Obligations.AddWritesSumModP
  intro rd rs1 rs2 s h ha hb
  exact exec_writes (i := .add rd rs1 rs2) h rfl (badOperand_two rfl ha hb) (modAdd_toNat ha hb)

/-- Settles O15, by the value of `modSub` as an integer residue. -/
theorem subWritesDifferenceModP : Obligations.SubWritesDifferenceModP := by
  unfold Obligations.SubWritesDifferenceModP
  intro rd rs1 rs2 s h ha hb
  exact exec_writes (i := .sub rd rs1 rs2) h rfl (badOperand_two rfl ha hb) (modSub_cast_toNat ha hb)

/-- Settles O16, by the value of `modNeg` as an integer residue. -/
theorem negWritesNegationModP : Obligations.NegWritesNegationModP := by
  unfold Obligations.NegWritesNegationModP
  intro rd rs1 s h ha
  exact exec_writes (i := .neg rd rs1) h rfl (badOperand_one rfl ha) (modNeg_cast_toNat ha)

/-- Settles O17: HLV exists with EXT_OPS, and its result is the half of the operand. -/
theorem hlvWritesHalfModP : Obligations.HlvWritesHalfModP := by
  unfold Obligations.HlvWritesHalfModP
  intro rd rs1 s h hext ha
  exact exec_writes (i := .hlv rd rs1) h hext (badOperand_one rfl ha)
    ((double_mod_eq_iff_modHlv ha _).2 rfl)

/-- Settles O18: DBL exists with EXT_OPS; the value of `modDbl`. -/
theorem dblWritesDoubleModP : Obligations.DblWritesDoubleModP := by
  unfold Obligations.DblWritesDoubleModP
  intro rd rs1 s h hext ha
  exact exec_writes (i := .dbl rd rs1) h hext (badOperand_one rfl ha) (modDbl_toNat ha)

/-- Settles O19: TPL exists with EXT_OPS; the value of `modTpl`. -/
theorem tplWritesTripleModP : Obligations.TplWritesTripleModP := by
  unfold Obligations.TplWritesTripleModP
  intro rd rs1 s h hext ha
  exact exec_writes (i := .tpl rd rs1) h hext (badOperand_one rfl ha) (modTpl_toNat _)

/-! ## Any command (R203, R205) -/

theorem badOperand_of_operandsLegal {b : Block} {i : Instr} (h : operandsLegal b i = true) :
    badOperand b i = false := by
  rwa [operandsLegal_eq, Bool.not_eq_true'] at h

/-- Settles O24: `operandB` is the table of R203, opcode by opcode. -/
theorem operandsLatchedPerOpcode : Obligations.OperandsLatchedPerOpcode := by
  unfold Obligations.OperandsLatchedPerOpcode
  intro i s h hw hlegal
  obtain ⟨s2, hexec, hexec2, hdone⟩ := exec_accept_complete h hw (badOperand_of_operandsLegal hlegal)
  have haccepted := acceptedState_accepted i s
  cases i <;> exact ⟨_, s2, hexec, haccepted, hexec2, hdone⟩

/-- Settles O25: `exec_completed` where the ENGINE step is enabled, `exec_engine` elsewhere. -/
theorem engineCompletesCommandInFlight : Obligations.EngineCompletesCommandInFlight := by
  unfold Obligations.EngineCompletesCommandInFlight
  intro i s hturn hop
  refine ⟨fun hb hr => ?enabled, fun hne => ?disabled⟩
  case enabled =>
    rw [← hop]
    exact exec_completed hturn hb hr
  case disabled =>
    rw [exec_engine i hturn, if_neg]
    simpa [engineEnabled] using hne

/-! ## The frame of a command, through the window (R49, R205) -/

/-- A location that is neither STATUS nor a word of F[rd] reads only what completion leaves. -/
theorem readLoc_complete {cfg : Config} {b : Block} {rd : FReg} {l : Loc} (hstatus : l ≠ .status)
    (hfield : ∀ k, l ≠ .field rd k) (v : Elem) (e : Engine) :
    readLoc cfg { b.writeF rd v with busy := false, done := true, eng := e } l = readLoc cfg b l := by
  cases l with
  | status => exact absurd rfl hstatus
  | field j k =>
    have hj : j ≠ rd := fun hj => hfield k (by rw [hj])
    exact congrArg (word · k) (b.readF_writeF_ne v hj)
  | id | bitlen | caps | nregs | ctrl | cmd | errinfo | mod k | r2 k | reserved => rfl

/-- STATUS after completion: BUSY = 0, DONE = 1, the error record as before (R197, R205). -/
theorem statusWord_complete (b : Block) (rd : FReg) (v : Elem) (e : Engine) :
    statusWord { b.writeF rd v with busy := false, done := true, eng := e } =
      (statusWord b &&& 0xFFFFFFFC#32) ||| 2#32 := by
  have hkept : ∀ j < 32, (0xFFFFFFFC#32).getLsbD j = decide (2 ≤ j) := by decide
  have hdone : ∀ j < 32, (2#32).getLsbD j = decide (j = 1) := by decide
  apply BitVec.eq_of_getLsbD_eq
  intro j hj
  rw [BitVec.getLsbD_or, BitVec.getLsbD_and, hkept j hj, hdone j hj, getLsbD_statusWord _ hj,
    getLsbD_statusWord _ hj]
  match j, hj with
  | 0, _ => simp
  | 1, _ => simp
  | n + 2, _ => simp

/-- Settles O20: the two steps end in the block of `readLoc_complete`. -/
theorem commandFrameThroughTheWindow : Obligations.CommandFrameThroughTheWindow := by
  unfold Obligations.CommandFrameThroughTheWindow
  intro i s h hw hlegal
  obtain ⟨s2, hexec, hexec2, hdone⟩ := exec_accept_complete h hw (badOperand_of_operandsLegal hlegal)
  have hcfg : s2.cfg = s.cfg := by rw [hdone]; rfl
  have hblk : s2.blk = { s.blk.writeF i.rd (result (opOf i) (s.blk.readF i.rs1) (operandB s.blk i)) with
      busy := false, done := true, eng := s2.blk.eng } := by
    rw [hdone]; rfl
  refine ⟨_, s2, hexec, hexec2, fun off hoff hfield => ?frame, ?status, ?irq⟩
  case frame =>
    rw [readAt, hblk, hcfg]
    exact readLoc_complete (fun hl => hoff (locate_eq_status hl)) hfield _ _
  case status =>
    rw [readAt, readAt, locate_status, hblk]
    exact statusWord_complete _ _ _ _
  case irq =>
    rw [irq, hblk]
    exact Bool.and_true _

end Sys2Proof.Machine
end

section
/-! PROOFS. A step as `exec` of a command, reads that repeat, and the errors of a host that does and does not respect
the hazards (20_memory.md, 42_host_transactions.md, 60_exceptions.md: R83, R202, R205, R209, R221, R233). -/

namespace Sys2Proof.Machine

/-! ## A step is `exec` of a command (R202, R205, R209) -/

/-- A well-formed write in the window, outside reset, is `hostWrite` in a HOST step (R192). -/
theorem perform_wr {s : State} (hr : s.rstN = true) (off : Off) (v : Word) :
    perform (wr s.cfg off v) s = hostWrite off 4 v { s with turn := .host } := by
  simp [perform, wr, hostStep, hr]

/-- Settles O7: the write reaches CMD, where the decoder gives `i`. -/
theorem cmdWriteStepRunsDecodedCommand : Obligations.CmdWriteStepRunsDecodedCommand := by
  unfold Obligations.CmdWriteStepRunsDecodedCommand
  intro s c i rest hr hdec
  have hform : wellFormed 0x018#12 4 = true := by decide
  rw [step_withEvents_cons]
  refine (perform_wr (s := { s with inbox := rest, rdata := none }) hr _ c).trans ?_
  simp only [hostWrite, hform, if_true, locate_cmd, cmdWrite, hdec]

/-- In an ENGINE step `exec` looks at the operation of the command alone: the rest is latched in ENG (R205). -/
theorem exec_engine_congr {i j : Instr} (hop : opOf i = opOf j) {s : State} (h : s.turn = .engine) :
    exec i s = exec j s := by
  rw [exec_engine i h, exec_engine j h, hop]

/-- Settles O8: the ENGINE's turn is `exec` of the command ENG makes, which has the operation of `i`. -/
theorem engineTurnRunsCommandInFlight : Obligations.EngineTurnRunsCommandInFlight := by
  unfold Obligations.EngineTurnRunsCommandInFlight
  intro s i rest hop _
  have hinstr : opOf s.blk.eng.instr = opOf i := (opOf_engine _).trans hop.symm
  exact ⟨exec_engine_congr hinstr rfl, exec_engine_congr hinstr rfl⟩

/-- Settles O9: `exec_next` and `step_next`; no effect changes the parameters. -/
theorem everyStepAnswersNext : Obligations.EveryStepAnswersNext := by
  unfold Obligations.EveryStepAnswersNext
  refine ⟨exec_next, fun s => ?_⟩
  obtain ⟨t, ht⟩ := step_next s
  obtain ⟨hcfg, -⟩ := step_effect ht
  exact ⟨t, ht, hcfg⟩

/-! ## Reads repeat (R83, R191) -/

/-- A CTRL read returns IE as a number (R195). -/
theorem ctrlWord_toNat (b : Block) : (ctrlWord b).toNat = if b.ie then 1 else 0 := by
  rw [ctrlWord]; cases b.ie <;> rfl

/-- Settles O41: the first read leaves the block, so the second finds the same word. -/
theorem readsAreIdempotent : Obligations.ReadsAreIdempotent := by
  unfold Obligations.ReadsAreIdempotent
  intro s off rest hr ha
  have hfirst := step_rd hr off (rd s.cfg off :: rest) ha
  have hsecond := step_rd
    (s := { s with inbox := rd s.cfg off :: rest, turn := .host, rdata := some (readAt s off) }) hr off rest ha
  refine ⟨_, _, readAt s off, hfirst, hsecond, rfl, rfl, rfl, rfl, rfl, ?ctrl, ?cmd, ?errinfo, ?field⟩
  case ctrl => rintro rfl; rw [readAt, locate_ctrl]; exact ctrlWord_toNat s.blk
  case cmd => rintro rfl; rw [readAt, locate_cmd, readLoc]
  case errinfo => rintro rfl; rw [readAt, locate_errinfo, readLoc]
  case field => rintro i k rfl; exact readAt_fieldOff s i k

/-! ## An error exactly on misuse (R221, R233) -/

/-- The effects that break a hazard, an operand range or the form of an access or a command (R233). -/
def Effect.misuses (s : State) : Effect → Bool
  | .bad _ => true
  | .cmd c => s.blk.busy ||
      match decode s.cfg c with
      | some i => badOperand s.blk i
      | none => true
  | .field _ _ _ => s.blk.busy
  | .quiet | .ctrl _ | .status _ | .complete | .pin _ => false

/-- The events that respect the hazards are those whose effect is no misuse. -/
theorem respectsHazards_eq (s : State) (e : Event) :
    respectsHazards s e = !(effect s e).misuses s := by
  cases e with
  | engine => simp only [respectsHazards, effect]; split <;> rfl
  | rstN level => rfl
  | host x =>
    simp only [respectsHazards, effect]
    cases offsetOf s.cfg x.addr with
    | none => rfl
    | some off =>
      cases hr : s.rstN with
      | false => rfl
      | true =>
        cases hw : wellFormed off x.size with
        | false => simp [hw, Effect.misuses]
        | true =>
          cases x.dir with
          | read => simp [hw, Effect.misuses]
          | write =>
            cases hl : locate off
            case cmd =>
              cases hd : decode s.cfg x.data <;>
                simp [hw, hl, writeEffect, Effect.misuses, operandsLegal_eq, hd]
            all_goals simp [hw, hl, writeEffect, Effect.misuses]

/-- A CMD write records an error exactly when it is a misuse (R222, R223, R225). -/
theorem afterCmd_err {s : State} (he : s.blk.err = false) (c : Word) :
    (afterCmd c s).err = (Effect.cmd c).misuses s := by
  rcases afterCmd_cases c s with ⟨hb, h⟩ | ⟨hb, hd, h⟩ | ⟨i, hb, hd, hl, h⟩ | ⟨i, hb, hd, hl, h⟩
  · simp [h, Effect.misuses, hb]
  · simp [h, Effect.misuses, hb, hd]
  · simp [h, Effect.misuses, hb, hd, hl]
  · simp [h, Effect.misuses, hb, hd, hl, he]

/-- From ERR = 0 an effect records an error exactly when it is a misuse. -/
theorem after_err {s : State} (he : s.blk.err = false) (x : Effect) :
    (x.after s).err = x.misuses s := by
  cases x with
  | quiet => exact he
  | bad info => exact raiseError_err ..
  | ctrl v => rw [Effect.after, ctrlWrite]; split <;> simp [Effect.misuses, he]
  | status v => simp [Effect.after, Effect.misuses, he]
  | field i k v =>
    rw [Effect.after, fieldWrite]
    cases hb : s.blk.busy <;> simp [Effect.misuses, hb, he]
  | cmd c => exact afterCmd_err he c
  | complete => exact he
  | pin level => cases level <;> simp [Effect.after, Effect.misuses, he]

theorem step_err {s t : State} (h : step s = .next t) (he : s.blk.err = false) :
    t.blk.err = !respectsHazards s (nextEvent s.inbox).1 := by
  obtain ⟨-, -, -, hblk⟩ := step_effect h
  rw [hblk, after_err he, respectsHazards_eq, Bool.not_not]

/-- Settles O33, by `step_err`. -/
theorem errorExactlyOnMisuse : Obligations.ErrorExactlyOnMisuse := by
  unfold Obligations.ErrorExactlyOnMisuse
  intro s t h he
  rw [step_err h he, Bool.not_eq_true']

/-! ## A respectful host (R233) -/

/-- A run as far as its events go leaves ERR = 0 where each event, when its turn comes, respects the hazards. -/
theorem run_err_eq_false {n : Nat} {s t : State} (hrun : Host.Core.run Sys2Proof.core n s = .next t)
    (he : s.blk.err = false) (hn : n ≤ s.inbox.length)
    (hresp : ∀ m u e, m < n → Host.Core.run Sys2Proof.core m s = .next u →
      u.inbox.head? = some e → respectsHazards u e = true) : t.blk.err = false := by
  induction n generalizing s with
  | zero => cases hrun; exact he
  | succ n ih =>
    obtain ⟨u, hu⟩ := step_next s
    obtain ⟨-, hinbox, -⟩ := step_effect hu
    cases hs : s.inbox with
    | nil => rw [hs] at hn; cases hn
    | cons e rest =>
      have hfirst := hresp 0 s e (Nat.succ_pos n) rfl (by rw [hs]; rfl)
      have herr := step_err hu he
      rw [hs] at hinbox herr hn
      rw [show respectsHazards s (nextEvent (e :: rest)).1 = true from hfirst] at herr
      rw [run_succ hu] at hrun
      refine ih hrun herr (hinbox ▸ Nat.le_of_succ_le_succ hn) fun m v e' hm hv => ?_
      exact hresp (m + 1) v e' (Nat.succ_lt_succ hm) ((run_succ hu m).trans hv)

/-- A CMD write that respects the hazards is an acceptance (R202). -/
theorem acceptsCommand_of_respects {s : State} {e : Event} (hw : (writesTo .cmd s e).isSome = true)
    (hr : respectsHazards s e = true) : acceptsCommand s e = true := by
  obtain ⟨c, hc⟩ := Option.isSome_iff_exists.1 hw
  have heffect : effect s e = .cmd c := writesTo_eq hc
  rw [respectsHazards_eq, heffect] at hr
  rw [acceptsCommand_iff]
  cases hd : decode s.cfg c with
  | none => simp [Effect.misuses, hd] at hr
  | some i =>
    have ⟨hb, hl⟩ : s.blk.busy = false ∧ badOperand s.blk i = false := by
      simpa [Effect.misuses, hd] using hr
    exact ⟨c, i, heffect, hb, hd, hl⟩

/-- Settles O34: `run_err_eq_false` for the whole run; a CMD write on the way is an acceptance. -/
theorem respectfulHostSeesNoError : Obligations.RespectfulHostSeesNoError := by
  unfold Obligations.RespectfulHostSeesNoError
  intro es s he hresp
  constructor
  · obtain ⟨u, hu⟩ := run_next es.length (withEvents es s)
    exact ⟨u, hu, run_err_eq_false hu he le_rfl hresp⟩
  · intro n t e u hn hrun hhead hcmd hstep
    have hnext : (nextEvent t.inbox).1 = e := by
      cases hinbox : t.inbox with
      | nil => rw [hinbox] at hhead; cases hhead
      | cons e' rest => rw [hinbox] at hhead; cases hhead; rfl
    have haccept := acceptsCommand_of_respects hcmd (hresp n t e hn hrun hhead)
    exact (step_busy_iff hstep).2 (.inl (hnext.symm ▸ haccept))

end Sys2Proof.Machine
end

section
/-! PROOFS. What writes a field register, when BUSY changes, that a command in flight completes, and that host traffic
does not bear on its result (10_state.md, 42_host_transactions.md: R14, R23, R39, R89, R203, R269). -/

namespace Sys2Proof.Machine

/-! ## What writes a field register (R23) -/

@[simp] theorem statusWrite_readF (v : Word) (b : Block) (i : FReg) :
    (statusWrite v b).readF i = b.readF i := by
  rw [statusWrite_eq]; rfl

/-- No CMD write changes a field register: a command is accepted there, and completed by the ENGINE (R202). -/
theorem afterCmd_readF (c : Word) (s : State) (i : FReg) :
    (afterCmd c s).readF i = s.blk.readF i := by
  rcases afterCmd_cases c s with ⟨_, h⟩ | ⟨_, _, h⟩ | ⟨_, _, _, _, h⟩ | ⟨_, _, _, _, h⟩ <;> rw [h]
  · exact raiseError_readF ..
  · exact raiseError_readF ..
  · exact raiseError_readF ..
  · rfl

/-- A field register that a host write changes is the one written, and BUSY was 0 (R201). -/
theorem of_fieldWrite_readF_ne {i j : FReg} {k : WordIdx} {v : Word} {b : Block}
    (h : (fieldWrite j k v b).readF i ≠ b.readF i) : b.busy = false ∧ j = i := by
  unfold fieldWrite at h
  split at h
  · exact absurd (raiseError_readF ..) h
  · next hb =>
    refine ⟨Bool.eq_false_iff.2 hb, ?_⟩
    by_contra hji
    exact h (Block.readF_writeF_ne _ _ (Ne.symm hji))

/-- Settles O46: of the effects only completion, a field write and the two resets change a field register. -/
theorem whatWritesFieldRegisters : Obligations.WhatWritesFieldRegisters := by
  unfold Obligations.WhatWritesFieldRegisters
  intro s t i hstep hne
  obtain ⟨-, -, -, hblk⟩ := step_effect hstep
  rw [hblk] at hne
  rw [completesCommand_eq, resetsNow_iff]
  cases hx : effect s (nextEvent s.inbox).1 <;> rw [hx, Effect.after] at hne
  case quiet => exact absurd rfl hne
  case bad info => exact absurd (raiseError_readF ..) hne
  case ctrl v =>
    right; right; right
    refine ⟨v, rfl, by_contra fun hv => hne ?_⟩
    rw [ctrlWrite, if_neg hv]
    rfl
  case status v => exact absurd (statusWrite_readF ..) hne
  case field j k v =>
    obtain ⟨hb, rfl⟩ := of_fieldWrite_readF_ne hne
    exact .inr (.inl ⟨hb, k, v, writesTo_of_effect (by simp [writeEffect]) hx⟩)
  case cmd c => exact absurd (afterCmd_readF ..) hne
  case complete =>
    refine .inl ⟨rfl, by_contra fun hrd => hne ?_⟩
    rw [complete_readF, if_neg (Ne.symm hrd)]
  case pin level =>
    cases level with
    | true => exact absurd rfl hne
    | false => exact .inr (.inr (.inl rfl))

/-! ## When BUSY changes (R39) -/

/-- While BUSY is 1 and stays 1, ENG holds what it held (R45, R202). -/
theorem after_eng {s : State} (hb : s.blk.busy = true) (x : Effect)
    (hx : (x.after s).busy = true) : (x.after s).eng = s.blk.eng := by
  cases x with
  | quiet => rfl
  | bad info => exact raiseError_eng ..
  | ctrl v =>
    rw [Effect.after, ctrlWrite] at hx ⊢
    split at hx
    · cases hx
    · next hv => rw [if_neg hv]
  | status v => exact statusWrite_eng ..
  | field i k v => exact fieldWrite_eng ..
  | cmd c => rw [Effect.after, afterCmd_busy hb]; exact raiseError_eng ..
  | complete => cases hx
  | pin level =>
    cases level with
    | true => rfl
    | false => cases hx

/-- From BUSY = 1 a step clears BUSY exactly at completion or reset: an acceptance needs BUSY = 0. -/
theorem step_busy_false_iff {s t : State} (h : step s = .next t) (hb : s.blk.busy = true) :
    t.blk.busy = false ↔ completesCommand s (nextEvent s.inbox).1 = true ∨
      resetsNow s (nextEvent s.inbox).1 = true := by
  have hnoaccept : ¬acceptsCommand s (nextEvent s.inbox).1 = true := fun ha => by
    obtain ⟨_, _, _, hidle, _⟩ := (acceptsCommand_iff _ _).1 ha
    exact Bool.false_ne_true (hidle.symm.trans hb)
  rw [← Bool.not_eq_true, step_busy_iff h]
  tauto

/-- Settles O47: `step_busy_iff` from BUSY = 0, `step_busy_false_iff` from BUSY = 1, and `after_eng`. -/
theorem busyRisesAndFalls : Obligations.BusyRisesAndFalls := by
  unfold Obligations.BusyRisesAndFalls
  intro s t h
  refine ⟨fun hb => ?rise, fun hb => ⟨step_busy_false_iff h hb, fun ht => ?kept⟩⟩
  case rise => rw [step_busy_iff h]; simp [hb]
  case kept =>
    obtain ⟨-, -, -, hblk⟩ := step_effect h
    rw [hblk] at ht ⊢
    exact after_eng hb _ ht

/-! ## A command in flight completes (R14) -/

/-- A step after which `rst_n` is asserted, from a state where it is not, leaves BUSY = 0 (R261). -/
theorem step_busy_of_rstN_false {s t : State} (h : step s = .next t) (hr : s.rstN = true)
    (ht : t.rstN = false) : t.blk.busy = false := by
  rw [step_resetHeld (resetHeld_of_rstN hr) h ht, Block.reset_busy]

/-- Settles O52: by induction on the events pending. A step leaves one event fewer, or has asserted `rst_n`; with no
event left the ENGINE's turn completes the command in flight. -/
theorem commandCompletesEventually : Obligations.CommandCompletesEventually := by
  unfold Obligations.CommandCompletesEventually
  intro s hr
  generalize hinbox : s.inbox = es
  induction es generalizing s with
  | nil =>
    cases hb : s.blk.busy with
    | false => exact ⟨0, s, Nat.zero_le _, rfl, hb⟩
    | true =>
      obtain ⟨t, ht⟩ := step_next s
      have hcompletes : completesCommand s (nextEvent s.inbox).1 = true := by
        rw [hinbox, completesCommand_eq]
        exact effect_engine_busy hr hb
      exact ⟨1, t, le_rfl, run_succ ht 0, (step_busy_false_iff ht hb).2 (.inl hcompletes)⟩
  | cons e es ih =>
    obtain ⟨u, hu⟩ := step_next s
    obtain ⟨-, hi, -⟩ := step_effect hu
    rw [hinbox] at hi
    cases hru : u.rstN with
    | false =>
      exact ⟨1, u, Nat.succ_le_succ (Nat.zero_le _), run_succ hu 0, step_busy_of_rstN_false hu hr hru⟩
    | true =>
      obtain ⟨n, t, hn, ht, hidle⟩ := ih u hru hi
      exact ⟨n + 1, t, Nat.succ_le_succ hn, (run_succ hu n).trans ht, hidle⟩

/-! ## Host traffic does not bear on a command in flight (R89, R203, R269) -/

/-- `t` has in flight the command that `s` has, outside reset, and the same field registers. -/
structure SameFlight (s t : State) : Prop where
  cfg : t.cfg = s.cfg
  rstN : t.rstN = true
  busy : t.blk.busy = true
  eng : t.blk.eng = s.blk.eng
  readF : ∀ j, t.blk.readF j = s.blk.readF j

theorem resetsNow_eq_false {s : State} {x : Txn} (h : resets s.cfg (.host x) = false) :
    resetsNow s (.host x) = false := by
  have hsoft : softResets s.cfg x = false := h
  simp [resetsNow, hsoft]

/-- A transaction moves no pin. -/
theorem effect_host_rstN (s : State) (x : Txn) : (effect s (.host x)).rstN s = s.rstN := by
  rcases effect_host_cases s x with hx | ⟨off, hx⟩ | ⟨l, hx⟩ <;> rw [hx]
  · rfl
  · rfl
  · cases l <;> rfl

/-- A transaction short of a soft reset leaves the command in flight and every field register. -/
theorem SameFlight.step_host {s t : State} (h : SameFlight s t) {x : Txn}
    (hx : resets s.cfg (.host x) = false) (rest : List Event) :
    ∃ u, step (withEvents (.host x :: rest) t) = .next u ∧ SameFlight s u := by
  obtain ⟨u, hu, hcfg, -, hrst, -⟩ := step_cons (.host x) rest t
  have hnoreset : resetsNow (withEvents (.host x :: rest) t) (.host x) = false :=
    resetsNow_eq_false (by rw [show (withEvents (.host x :: rest) t).cfg = s.cfg from h.cfg]; exact hx)
  have hbusy : u.blk.busy = true := (step_busy_iff hu).2
    (.inr ⟨h.busy, nofun, Bool.eq_false_iff.1 hnoreset⟩)
  obtain ⟨-, hkept⟩ := busyRisesAndFalls _ _ hu
  obtain ⟨-, heng⟩ := hkept h.busy
  refine ⟨u, hu, hcfg.trans h.cfg, ?_, hbusy, (heng hbusy).trans h.eng, fun j => ?_⟩
  · rw [hrst, effect_host_rstN, h.rstN]
  · by_contra hne
    rcases whatWritesFieldRegisters _ _ j hu (fun he => hne (he.trans (h.readF j))) with
      ⟨hc, -⟩ | ⟨hidle, -⟩ | hreset
    · cases hc
    · exact Bool.false_ne_true (hidle.symm.trans h.busy)
    · exact Bool.false_ne_true (hnoreset.symm.trans hreset)

/-- Any number of transactions short of a soft reset leave the command in flight and every field register. -/
theorem SameFlight.runEvents_host {s t : State} (h : SameFlight s t) {es : List Event}
    (hes : ∀ e ∈ es, (∃ x, e = .host x) ∧ resets s.cfg e = false) :
    ∃ u, runEvents es t = .next u ∧ SameFlight s u := by
  induction es generalizing t with
  | nil => exact ⟨_, runEvents_nil t, h.cfg, h.rstN, h.busy, h.eng, h.readF⟩
  | cons e es ih =>
    obtain ⟨⟨⟨x, rfl⟩, hx⟩, hrest⟩ := List.forall_mem_cons.1 hes
    obtain ⟨u, hu, hflight⟩ := h.step_host hx es
    rw [runEvents_cons hu]
    exact ih hflight hrest

/-- Settles O53: acceptance puts the command in flight, `runEvents_host` keeps it there, and completion writes the
result of what ENG latched. -/
theorem resultSurvivesHostTraffic : Obligations.ResultSurvivesHostTraffic := by
  unfold Obligations.ResultSurvivesHostTraffic
  intro s c i es hr hidle hdec hlegal hes
  obtain ⟨a, ha, hcfg, -, hrst, hblk⟩ := step_cons (wr s.cfg 0x018#12 c) (es ++ [.engine]) s
  rw [effect_wr hr _ c (by decide), locate_cmd] at hrst hblk
  have haccepted := hblk.trans (afterCmd_ok hidle hdec (badOperand_of_operandsLegal hlegal))
  have hflight : SameFlight a a :=
    ⟨rfl, hrst.trans hr, by rw [haccepted], rfl, fun _ => rfl⟩
  obtain ⟨u, hu, hkept⟩ := hflight.runEvents_host (es := es) (by rwa [hcfg])
  obtain ⟨t, ht, hdone⟩ := step_engine_busy hkept.rstN hkept.busy []
  have hrun : runEvents (wr s.cfg 0x018#12 c :: es ++ [.engine]) s = .next (withEvents [] t) := by
    rw [List.cons_append, runEvents_cons ha, runEvents_append _ hu, runEvents_cons ht, runEvents_nil]
  refine ⟨_, hrun, ?_⟩
  change t.blk.busy = false ∧ t.blk.done = true ∧ ∀ j, t.blk.readF j = _
  rw [hdone]
  refine ⟨rfl, rfl, fun j => ?_⟩
  rw [complete_readF, hkept.readF, hkept.eng, haccepted]
  rfl

end Sys2Proof.Machine
end

section
/-! PROOFS. The word-serial reduction computes MontMul (40_montgomery.md: R131, R137). -/

namespace Sys2Proof.Machine

/-- The values of the word-serial reduction: T after `i` rounds (R137). -/
def redcRounds (w t i : Nat) : Nat := (List.range i).foldl (redcRound w) t

theorem redcRounds_succ (w t i : Nat) :
    redcRounds w t (i + 1) = redcRound w (redcRounds w t i) i := by
  rw [redcRounds, List.range_succ, List.foldl_append, List.foldl_cons, List.foldl_nil, redcRounds]

/-- What a round does to T: the lowest word not yet 0, times p, is added at its place, which makes it 0 because
p = -1 modulo the word size (n0' = 1). -/
theorem two_pow_dvd_redcRound {w t i : Nat} (hp : 2 ^ w ∣ Rom.p + 1) (ht : 2 ^ (w * i) ∣ t) :
    2 ^ (w * (i + 1)) ∣ redcRound w t i := by
  obtain ⟨q, rfl⟩ := ht
  have hround : redcRound w (2 ^ (w * i) * q) i = 2 ^ (w * i) * (q + q % 2 ^ w * Rom.p) := by
    rw [redcRound, Nat.mul_div_cancel_left q (Nat.two_pow_pos _)]; ring
  have hword : q + q % 2 ^ w * Rom.p = 2 ^ w * (q / 2 ^ w) + q % 2 ^ w * (Rom.p + 1) := by
    have hq := Nat.div_add_mod q (2 ^ w)
    rw [Nat.mul_add, Nat.mul_one]
    omega
  rw [hround, hword, Nat.mul_succ, pow_add]
  exact Nat.mul_dvd_mul_left _ (Nat.dvd_add (Nat.dvd_mul_right ..) (hp.mul_left _))

/-- The rounds add a multiple of p. -/
theorem redcRounds_modEq (w t i : Nat) : redcRounds w t i ≡ t [MOD Rom.p] := by
  induction i with
  | zero => rfl
  | succ i ih =>
    rw [redcRounds_succ, redcRound, Nat.mul_right_comm]
    exact (Nat.modEq_zero_iff_dvd.2 (Nat.dvd_mul_left ..)).add_left _ |>.trans ih

/-- After `i` rounds the low `i` words of T are 0. -/
theorem two_pow_dvd_redcRounds {w : Nat} (hp : 2 ^ w ∣ Rom.p + 1) (t i : Nat) :
    2 ^ (w * i) ∣ redcRounds w t i := by
  induction i with
  | zero => simp
  | succ i ih => rw [redcRounds_succ]; exact two_pow_dvd_redcRound hp ih

/-- After `i` rounds less than `i` words times p have been added. -/
theorem redcRounds_add_p_le (w t i : Nat) : redcRounds w t i + Rom.p ≤ t + 2 ^ (w * i) * Rom.p := by
  induction i with
  | zero => simp [redcRounds]
  | succ i ih =>
    have hword : redcRounds w t i / 2 ^ (w * i) % 2 ^ w + 1 ≤ 2 ^ w := Nat.mod_lt _ (Nat.two_pow_pos w)
    rw [redcRounds_succ, redcRound]
    generalize redcRounds w t i / 2 ^ (w * i) % 2 ^ w = m at hword ⊢
    calc redcRounds w t i + m * Rom.p * 2 ^ (w * i) + Rom.p
        = redcRounds w t i + Rom.p + m * Rom.p * 2 ^ (w * i) := Nat.add_right_comm _ _ _
      _ ≤ t + 2 ^ (w * i) * Rom.p + m * Rom.p * 2 ^ (w * i) := Nat.add_le_add_right ih _
      _ = t + (m + 1) * (Rom.p * 2 ^ (w * i)) := by ring
      _ ≤ t + 2 ^ w * (Rom.p * 2 ^ (w * i)) := Nat.add_le_add_left (Nat.mul_le_mul_right _ hword) _
      _ = t + 2 ^ (w * (i + 1)) * Rom.p := by rw [Nat.mul_succ, pow_add]; ring

/-- The reduction with `n` words of `w` bits, for every such division of 256 bits in which p = -1 modulo the word
size, is the Montgomery product. -/
theorem redc_eq_montMul {w n : Nat} (hwn : w * n = 256) (hp : 2 ^ w ∣ Rom.p + 1) {a b : Elem}
    (ha : a.toNat < Rom.p) (hb : b.toNat < Rom.p) : redc w n a b = (montMul a b).toNat := by
  have hdvd := two_pow_dvd_redcRounds hp (a.toNat * b.toNat) n
  have hmod := redcRounds_modEq w (a.toNat * b.toNat) n
  have hle := redcRounds_add_p_le w (a.toNat * b.toNat) n
  have hab : a.toNat * b.toNat < Rom.p * Rom.p := Nat.mul_lt_mul'' ha hb
  have hpR : Rom.p * Rom.p ≤ 2 ^ 256 * Rom.p := Nat.mul_le_mul_right _ p_lt.le
  rw [hwn] at hdvd hle
  rw [redc, ← redcRounds]
  obtain ⟨t, ht⟩ := hdvd
  rw [ht] at hmod hle ⊢
  rw [Nat.mul_div_cancel_left t (Nat.two_pow_pos 256)]
  have hsmall : t < 2 * Rom.p := Nat.lt_of_mul_lt_mul_left (a := 2 ^ 256) (by omega)
  rw [Nat.mul_comm] at hmod
  apply eq_montMul_toNat
  · split <;> omega
  · split
    · next hge =>
      have hred : t - Rom.p ≡ t [MOD Rom.p] := (Nat.mod_eq_sub_mod hge).symm
      exact (hred.mul_right _).trans hmod
    · exact hmod

/-- Settles O57: both word sizes divide 256 bits, and the low 64 bits of p are all 1. -/
theorem wordSerialReductionIsMontMul : Obligations.WordSerialReductionIsMontMul := by
  unfold Obligations.WordSerialReductionIsMontMul
  intro a b ha hb
  exact ⟨redc_eq_montMul (by decide) (by decide) ha hb, redc_eq_montMul (by decide) (by decide) ha hb⟩

end Sys2Proof.Machine
end

section
/-! PROOFS. The loads and stores of a field register, WAIT, a command followed by `!`, and the command
pseudo-instructions (30_encoding.md: R113 - R117). -/

namespace Sys2Proof.Machine

/-! ## LDF and STF (R113, R114) -/

/-- The value `x` with the words `ks` of `v` written into it, one after the other (R113). -/
def writeWords (v : Elem) (ks : List WordIdx) (x : Elem) : Elem :=
  ks.foldl (fun x k => setWord x k (word v k)) x

theorem word_writeWords (v : Elem) (ks : List WordIdx) (x : Elem) (k : WordIdx) :
    word (writeWords v ks x) k = if k ∈ ks then word v k else word x k := by
  induction ks generalizing x with
  | nil => rfl
  | cons k' ks ih =>
    rw [writeWords, List.foldl_cons, ← writeWords, ih]
    by_cases hmem : k ∈ ks
    · rw [if_pos hmem, if_pos (List.mem_cons_of_mem _ hmem)]
    · by_cases hk : k = k'
      · rw [if_neg hmem, hk, word_setWord_same, if_pos List.mem_cons_self]
      · rw [if_neg hmem, word_setWord_ne _ _ hk, if_neg (by simp [hk, hmem])]

/-- Every word is written, in increasing order (R78). -/
theorem mem_wordOrder (k : WordIdx) : k ∈ wordOrder := by
  revert k; decide

/-- Writing all the words of a value gives the value (R9, R113). -/
theorem writeWords_wordOrder (v x : Elem) : writeWords v wordOrder x = v :=
  elem_ext fun k => by rw [word_writeWords, if_pos (mem_wordOrder k)]

theorem writeF_writeF_same (b : Block) (i : FReg) (x y : Elem) :
    (b.writeF i x).writeF i y = b.writeF i y := by
  simp [Block.writeF]

theorem writeF_readF_self (b : Block) (i : FReg) : b.writeF i (b.readF i) = b := by
  simp [Block.writeF, Block.readF]

/-- Writes of words of one register of an idle block, one after the other (R201). -/
theorem runEvents_wr_words {s : State} (hr : s.rstN = true) (hidle : s.blk.busy = false) (i : FReg)
    (v : Elem) (ks : List WordIdx) :
    ∃ t, runEvents (ks.map fun k => wr s.cfg (fieldOff i k) (word v k)) s = .next t ∧
      t.blk = s.blk.writeF i (writeWords v ks (s.blk.readF i)) := by
  induction ks generalizing s with
  | nil => exact ⟨_, runEvents_nil s, (writeF_readF_self s.blk i).symm⟩
  | cons k ks ih =>
    obtain ⟨u, hu, hcfg, -, hrst, hblk⟩ := step_cons (wr s.cfg (fieldOff i k) (word v k))
      (ks.map fun k => wr s.cfg (fieldOff i k) (word v k)) s
    rw [effect_wr hr _ _ (fieldOff_aligned i k), locate_fieldOff] at hrst hblk
    have hwritten : u.blk = s.blk.writeF i (setWord (s.blk.readF i) k (word v k)) := by
      rw [hblk, writeEffect, Effect.after, fieldWrite, if_neg (Bool.eq_false_iff.1 hidle)]
    obtain ⟨t, ht, hall⟩ := ih (s := u) (hrst.trans hr) (by rw [hwritten]; exact hidle)
    rw [hcfg] at ht
    refine ⟨t, (runEvents_cons hu).trans ht, ?_⟩
    rw [hall, hwritten, writeF_writeF_same, Block.readF_writeF_same]
    rfl

/-- Reads of words of one register leave the block (R83). -/
theorem runEvents_rd_words {s : State} (hr : s.rstN = true) (i : FReg) (ks : List WordIdx) :
    ∃ t, runEvents (ks.map fun k => rd s.cfg (fieldOff i k)) s = .next t ∧ t.cfg = s.cfg ∧
      t.rstN = true ∧ t.blk = s.blk := by
  induction ks generalizing s with
  | nil => exact ⟨_, runEvents_nil s, rfl, hr, rfl⟩
  | cons k ks ih =>
    have hread := step_rd hr (fieldOff i k) (ks.map fun k => rd s.cfg (fieldOff i k)) (fieldOff_aligned i k)
    obtain ⟨t, ht, hkept⟩ := ih (s := { s with
      inbox := ks.map fun k => rd s.cfg (fieldOff i k)
      turn := .host
      rdata := some (readAt s (fieldOff i k)) }) hr
    exact ⟨t, (runEvents_cons hread).trans ht, hkept⟩

/-- The first k + 1 reads of STF are k reads, then that of word k (R114). -/
theorem stf_take_succ (cfg : Config) (i : FReg) (k : WordIdx) :
    (stf cfg i).take (k.val + 1) =
      ((wordOrder.take k.val).map fun k => rd cfg (fieldOff i k)) ++ [rd cfg (fieldOff i k)] := by
  have hword : wordOrder.take (k.val + 1) = wordOrder.take k.val ++ [k] := by revert k; decide
  rw [stf, ← List.map_take, hword, List.map_append, List.map_singleton]

/-- A value is the sum of its words, each at its place (R9). -/
theorem joinWords_word (v : Elem) : joinWords (wordOrder.map (word v)) = v.toNat := by
  have hv := v.isLt
  simp [wordOrder, joinWords, word_toNat]
  omega

/-- Settles O60: the eight writes leave all words of `v`, a read is of the word as it stands, and a value is its
words. -/
theorem loadAndStoreFieldRegister : Obligations.LoadAndStoreFieldRegister := by
  unfold Obligations.LoadAndStoreFieldRegister
  intro s i v hr
  refine ⟨fun hidle => ?ldf, fun k => ?stf, joinWords_word v⟩
  case ldf =>
    obtain ⟨t, ht, hblk⟩ := runEvents_wr_words hr hidle i v wordOrder
    rw [writeWords_wordOrder] at hblk
    refine ⟨t, ht, ?_, fun j hj => ?_, ?_⟩ <;> rw [hblk]
    · exact Block.readF_writeF_same _ i v
    · exact Block.readF_writeF_ne _ v hj
    · rfl
  case stf =>
    obtain ⟨u, hu, hcfg, hrst, hkept⟩ := runEvents_rd_words hr i (wordOrder.take k.val)
    obtain ⟨t, ht, hword, hblk⟩ := runEvents_rd_field hrst i k
    rw [hcfg] at ht
    rw [hkept] at hword hblk
    exact ⟨t, by rw [stf_take_succ, runEvents_append _ hu, ht], hword, hblk⟩

/-! ## WAIT (R115) -/

theorem runEvents_resetHeld {es : List Event} {s t : State} (h : ResetHeld s)
    (hrun : runEvents es s = .next t) : ResetHeld t := by
  induction es generalizing s with
  | nil => cases hrun; exact h
  | cons e es ih =>
    obtain ⟨u, hu⟩ := step_next (withEvents (e :: es) s)
    rw [runEvents_cons hu] at hrun
    exact ih (step_resetHeld (s := withEvents (e :: es) s) h hu) hrun

/-- The STATUS read of WAIT returns the STATUS word also in reset, where both are 0 (R197, R262). -/
theorem runEvents_poll {s : State} (h : ResetHeld s) : runEvents [poll s.cfg] s = .next (polled s) := by
  cases hr : s.rstN with
  | true => rw [poll, runEvents_cons (step_rd hr 0x014#12 [] (by decide))]; rfl
  | false =>
    have hzero : statusWord s.blk = 0 := by rw [h hr]; decide
    have hstep := step_read_in_reset (x := ⟨.read, addrOf s.cfg 0x014#12, 4, 0⟩) hr rfl
      (offsetOf_addrOf _ _) []
    rw [polled, hzero, poll, rd, runEvents_cons hstep]
    rfl

/-- One turn of a WAIT loop, with `waitLoop_cons`' outcome also where `g` has asserted `rst_n` (R115, R262). -/
theorem waitLoop_turn {g : List Event} {s u : State} (turns : List (List Event)) (h : ResetHeld s)
    (hg : runEvents g s = .next u) : waitLoop (g :: turns) s =
      if u.blk.busy then waitLoop turns (polled u) else .next (.done (polled u)) := by
  obtain ⟨u', hu', -, hcfg⟩ := runEvents_next g s
  obtain rfl : u' = u := by rw [hg] at hu'; injection hu' with hu'; exact hu'.symm
  have hturn : runEvents (g ++ [poll s.cfg]) s = .next (polled u') := by
    rw [runEvents_append _ hg, ← hcfg, runEvents_poll (runEvents_resetHeld h hg)]
  have hexits : waitExits (polled u') = !u'.blk.busy := waitExits_status rfl
  simp only [waitLoop, hturn, hexits]
  cases u'.blk.busy <;> rfl

/-- A WAIT that ends has read a STATUS word with BUSY = 0 (R115). -/
theorem waitLoop_done {turns : List (List Event)} {s t : State} (h : ResetHeld s)
    (hdone : waitLoop turns s = .next (.done t)) :
    t.blk.busy = false ∧ t.rdata = some (statusWord t.blk) := by
  induction turns generalizing s with
  | nil => cases hdone
  | cons g turns ih =>
    obtain ⟨u, hu, -⟩ := runEvents_next g s
    have hheld : ResetHeld u := runEvents_resetHeld h hu
    rw [waitLoop_turn turns h hu] at hdone
    cases hb : u.blk.busy with
    | true =>
      rw [hb, if_pos rfl] at hdone
      exact ih (s := polled u) hheld hdone
    | false =>
      rw [hb, if_neg Bool.false_ne_true] at hdone
      cases hdone
      exact ⟨hb, rfl⟩

/-- With no command in flight ENGINE turns leave the block (R205). -/
theorem runEvents_engines_idle {g : List Event} (hg : ∀ e ∈ g, e = .engine) {s : State}
    (hidle : s.blk.busy = false) :
    ∃ t, runEvents g s = .next t ∧ t.cfg = s.cfg ∧ t.rstN = s.rstN ∧ t.blk = s.blk := by
  induction g generalizing s with
  | nil => exact ⟨_, runEvents_nil s, rfl, rfl, rfl⟩
  | cons e g ih =>
    obtain ⟨rfl, hrest⟩ := List.forall_mem_cons.1 hg
    obtain ⟨u, hu, hcfg, -, hrst, hblk⟩ := step_cons .engine g s
    rw [effect_engine_idle hidle] at hrst hblk
    obtain ⟨t, ht, hcfg', hrst', hblk'⟩ := ih hrest (s := u) (by rw [hblk]; exact hidle)
    exact ⟨t, (runEvents_cons hu).trans ht, hcfg'.trans hcfg, hrst'.trans hrst, hblk'.trans hblk⟩

/-- Of ENGINE turns the first completes the command in flight, and the others leave the block (R205). -/
theorem runEvents_engines_busy {g : List Event} (hg : ∀ e ∈ g, e = .engine) (hne : g ≠ []) {s : State}
    (hr : s.rstN = true) (hb : s.blk.busy = true) :
    ∃ t, runEvents g s = .next t ∧ t.cfg = s.cfg ∧ t.rstN = true ∧ t.blk = Effect.complete.after s := by
  cases g with
  | nil => exact absurd rfl hne
  | cons e g =>
    obtain ⟨rfl, hrest⟩ := List.forall_mem_cons.1 hg
    obtain ⟨u, hu, hcfg, -, hrst, hblk⟩ := step_cons .engine g s
    rw [effect_engine_busy hr hb] at hrst hblk
    obtain ⟨t, ht, hcfg', hrst', hblk'⟩ := runEvents_engines_idle hrest (s := u) (by rw [hblk]; rfl)
    exact ⟨t, (runEvents_cons hu).trans ht, hcfg'.trans hcfg, (hrst'.trans hrst).trans hr,
      hblk'.trans hblk⟩

/-- With no command in flight a WAIT ends in its first turn and leaves the block. -/
theorem waitLoop_idle {g : List Event} (hg : ∀ e ∈ g, e = .engine) (turns : List (List Event))
    {s : State} (hr : s.rstN = true) (hidle : s.blk.busy = false) :
    ∃ t, waitLoop (g :: turns) s = .next (.done t) ∧ t.blk = s.blk := by
  obtain ⟨u, hu, -, -, hblk⟩ := runEvents_engines_idle hg hidle
  have hu_idle : ¬u.blk.busy = true := by rw [hblk]; exact Bool.eq_false_iff.1 hidle
  exact ⟨polled u, by rw [waitLoop_turn turns (resetHeld_of_rstN hr) hu, if_neg hu_idle], hblk⟩

/-- A WAIT for a command in flight reads on until the ENGINE's step has come, and ends after it (R14, R115). -/
theorem waitLoop_busy {turns : List (List Event)} (h : EngineTurns turns) {s : State}
    (hr : s.rstN = true) (hb : s.blk.busy = true) :
    ∃ t, waitLoop turns s = .next (.done t) ∧ t.cfg = s.cfg ∧ t.rstN = true ∧
      t.blk = Effect.complete.after s := by
  obtain ⟨hengine, g', hmem, hne'⟩ := h
  induction turns generalizing s with
  | nil => cases hmem
  | cons g turns ih =>
    obtain ⟨hg, hrest⟩ := List.forall_mem_cons.1 hengine
    have hheld := resetHeld_of_rstN hr
    by_cases hne : g = []
    · subst hne
      have hmem' : g' ∈ turns := (List.mem_cons.1 hmem).resolve_left hne'
      obtain ⟨t, ht, hcfg, hrst, hblk⟩ := ih (s := polled (withEvents [] s)) hr hb hrest hmem'
      refine ⟨t, ?_, hcfg, hrst, hblk.trans (after_congr rfl rfl rfl _)⟩
      rw [waitLoop_turn turns hheld (runEvents_nil s), if_pos (show (withEvents [] s).blk.busy = true from hb),
        ht]
    · obtain ⟨u, hu, hcfg, hrst, hblk⟩ := runEvents_engines_busy hg hne hr hb
      have hu_idle : ¬u.blk.busy = true := by rw [hblk]; exact Bool.false_ne_true
      exact ⟨polled u, by rw [waitLoop_turn turns hheld hu, if_neg hu_idle], hcfg, hrst, hblk⟩

/-! ## A command followed by `!` (R116) -/

/-- `t` is `s` after command `i` with its WAIT: the result in F[rd] and nowhere else, DONE = 1, ERR as it was. -/
structure Synced (i : Instr) (s t : State) : Prop where
  cfg : t.cfg = s.cfg
  rstN : t.rstN = true
  busy : t.blk.busy = false
  done : t.blk.done = true
  err : t.blk.err = s.blk.err
  readF : ∀ j, t.blk.readF j =
    if j = i.rd then result (opOf i) (s.blk.readF i.rs1) (operandB s.blk i) else s.blk.readF j

theorem Synced.readF_rd {i : Instr} {s t : State} (h : Synced i s t) :
    t.blk.readF i.rd = result (opOf i) (s.blk.readF i.rs1) (operandB s.blk i) := by
  rw [h.readF, if_pos rfl]

/-- A legal command with its WAIT, from an idle block. -/
theorem sync_accepted {i : Instr} {s : State} {turns : List (List Event)} (hr : s.rstN = true)
    (hidle : s.blk.busy = false) (hw : i.wf s.cfg = true) (hb : badOperand s.blk i = false)
    (hturns : EngineTurns turns) : ∃ t, sync i turns s = .next (.done t) ∧ Synced i s t := by
  obtain ⟨a, ha, hcfg, hrst, hblk⟩ := sync_eq (i := i) turns hr
  rw [afterCmd_ok hidle ((decode_encode _ i).trans (if_pos hw)) hb] at hblk
  obtain ⟨t, ht, hcfg', hrst', hdone⟩ := waitLoop_busy hturns hrst (by rw [hblk])
  refine ⟨t, ha.trans ht, hcfg'.trans hcfg, hrst', ?_, ?_, ?_, fun j => ?_⟩ <;>
    rw [hdone, Effect.after]
  · rfl
  · rfl
  · rw [complete_err, hblk]
  · rw [complete_readF, hblk]; rfl

/-- The refusal of a command that the block has not, or with an operand out of range, on an idle block (R222,
R223). -/
theorem afterCmd_refused {i : Instr} {s : State} (hidle : s.blk.busy = false)
    (h : (i.wf s.cfg && operandsLegal s.blk i) = false) :
    ∃ ops, afterCmd (encode i) s = raiseError (if i.wf s.cfg then .range else .illegalCmd) (encode i) ops
      (clearDone { s.blk with cmdrb := encode i }) := by
  have hdec := decode_encode s.cfg i
  cases hw : i.wf s.cfg with
  | false =>
    rw [hw, if_neg Bool.false_ne_true] at hdec
    exact ⟨_, afterCmd_illegal hidle hdec⟩
  | true =>
    rw [hw, if_pos rfl] at hdec
    rw [hw, Bool.true_and, operandsLegal_eq, Bool.not_eq_false'] at h
    exact ⟨_, afterCmd_range hidle hdec h⟩

/-- A refused command with its WAIT, from an idle block: the first read sees BUSY = 0. -/
theorem sync_refused {i : Instr} {s : State} {g : List Event} (turns : List (List Event))
    (hr : s.rstN = true) (hidle : s.blk.busy = false)
    (h : (i.wf s.cfg && operandsLegal s.blk i) = false) (hg : ∀ e ∈ g, e = .engine) :
    ∃ t, sync i (g :: turns) s = .next (.done t) ∧ t.blk.busy = false ∧ t.blk.done = false ∧
      t.blk.err = true ∧ t.blk.f = s.blk.f ∧
      (s.blk.err = false → t.blk.ecode = if i.wf s.cfg then .range else .illegalCmd) := by
  obtain ⟨ops, hrefused⟩ := afterCmd_refused hidle h
  obtain ⟨a, ha, -, hrst, hblk⟩ := sync_eq (i := i) (g :: turns) hr
  rw [hrefused] at hblk
  have ha_idle : a.blk.busy = false := by rw [hblk, raiseError_busy]; exact hidle
  obtain ⟨t, ht, hkept⟩ := waitLoop_idle hg turns hrst ha_idle
  refine ⟨t, ha.trans ht, ?_, ?_, ?_, ?_, fun herr => ?_⟩ <;> rw [hkept, hblk]
  · exact (raiseError_busy ..).trans hidle
  · exact raiseError_done ..
  · exact raiseError_err ..
  · exact raiseError_f ..
  · rw [raiseError_ecode]
    exact if_neg (Bool.eq_false_iff.1 herr)

/-! ## The command pseudo-instructions (R117) -/

/-- A command with a WAIT of one turn is the run of its events, and the read ends the loop. -/
theorem runEvents_of_sync {i : Instr} {g : List Event} {s t : State}
    (h : sync i [g] s = .next (.done t)) :
    runEvents ([issue s.cfg i] ++ (g ++ [poll s.cfg])) s = .next t ∧ waitExits t = true := by
  obtain ⟨a, ha, -, hcfg⟩ := runEvents_next [issue s.cfg i] s
  obtain ⟨b, hb, -⟩ := runEvents_next (g ++ [poll a.cfg]) a
  simp only [sync, ha, waitLoop, hb] at h
  split at h
  · next hexits =>
    cases h
    exact ⟨by rw [runEvents_append _ ha, ← hcfg, hb], hexits⟩
  · cases h

theorem modSub_self {a : Elem} (ha : a.toNat < Rom.p) : modSub a a = 0 :=
  eq_of_modEq (modSub_lt ha ha) p_pos <| by
    rw [modSub_toNat ha ha, Nat.add_sub_cancel' ha.le, Nat.mod_self]; rfl

section PseudoInstructions

variable {s : State} (hr : s.rstN = true) (hidle : s.blk.busy = false)
variable (d : FReg) {a : FReg} (ha : (s.blk.readF a).toNat < Rom.p)
variable {w1 w2 : List (List Event)} (hw1 : EngineTurns w1) (hw2 : EngineTurns w2)

include hr hidle ha in
/-- CLR: SUB of an operand from itself, and the ENGINE's turn. -/
theorem clr_result : ∃ t, runEvents (clr s.cfg d a ++ [.engine, poll s.cfg]) s = .next t ∧
    t.blk.readF d = 0 ∧ waitExits t = true := by
  have hturn : EngineTurns [[.engine]] := by simp [EngineTurns]
  obtain ⟨t, ht, hsync⟩ := sync_accepted (i := .sub d a a) hr hidle rfl (badOperand_two rfl ha ha) hturn
  obtain ⟨hrun, hexits⟩ := runEvents_of_sync ht
  exact ⟨t, hrun, hsync.readF_rd.trans (modSub_self ha), hexits⟩

include hr hidle ha hw1 hw2 in
/-- MOV: NEG twice. -/
theorem mov_result : ∃ t, mov d a w1 w2 s = .next (.done t) ∧ t.blk.readF d = s.blk.readF a := by
  obtain ⟨u, hu, hsync⟩ := sync_accepted (i := .neg d a) hr hidle rfl (badOperand_one rfl ha) hw1
  have hneg : u.blk.readF d = modNeg (s.blk.readF a) := hsync.readF_rd
  obtain ⟨t, ht, hsync'⟩ := sync_accepted (i := .neg d d) hsync.rstN hsync.busy rfl
    (badOperand_one rfl (hneg ▸ modNeg_lt ha)) hw2
  have hnegneg : t.blk.readF d = modNeg (u.blk.readF d) := hsync'.readF_rd
  exact ⟨t, by rw [mov, syncAll_cons _ hu, syncAll_cons _ ht, syncAll],
    by rw [hnegneg, hneg, modNeg_modNeg ha]⟩

include hr hidle ha hw1 in
/-- DBL2: ADD of an operand to itself. -/
theorem dbl2_result :
    ∃ t, dbl2 d a w1 s = .next (.done t) ∧ t.blk.readF d = modDbl (s.blk.readF a) := by
  obtain ⟨t, ht, hsync⟩ := sync_accepted (i := .add d a a) hr hidle rfl (badOperand_two rfl ha ha) hw1
  exact ⟨t, by rw [dbl2, syncAll_cons _ ht, syncAll],
    hsync.readF_rd.trans (modDbl_eq_modAdd _).symm⟩

include hr hidle ha hw1 hw2 in
/-- TPL2: the double, in another register than the operand, and the operand added to it. -/
theorem tpl2_result {x : FReg} (hx : x ≠ a) :
    ∃ t, tpl2 d a x w1 w2 s = .next (.done t) ∧ t.blk.readF d = modTpl (s.blk.readF a) := by
  obtain ⟨u, hu, hsync⟩ := sync_accepted (i := .add x a a) hr hidle rfl (badOperand_two rfl ha ha) hw1
  have hdbl : u.blk.readF x = modDbl (s.blk.readF a) := hsync.readF_rd.trans (modDbl_eq_modAdd _).symm
  have hkept : u.blk.readF a = s.blk.readF a := (hsync.readF a).trans (if_neg hx.symm)
  obtain ⟨t, ht, hsync'⟩ := sync_accepted (i := .add d x a) hsync.rstN hsync.busy rfl
    (badOperand_two rfl (hdbl ▸ modDbl_lt ha) (hkept ▸ ha)) hw2
  have hsum : t.blk.readF d = modAdd (u.blk.readF x) (u.blk.readF a) := hsync'.readF_rd
  exact ⟨t, by rw [tpl2, syncAll_cons _ hu, syncAll_cons _ ht, syncAll],
    by rw [hsum, hdbl, hkept, modTpl_eq_modAdd_modDbl ha]⟩

include hr hidle ha hw1 hw2 in
/-- MMULN: MUL divides the product by R, and ENC multiplies it by R. -/
theorem mmuln_result {b : FReg} (hb : (s.blk.readF b).toNat < Rom.p) :
    ∃ t, mmuln d a b w1 w2 s = .next (.done t) ∧
      (t.blk.readF d).toNat = (s.blk.readF a).toNat * (s.blk.readF b).toNat % Rom.p := by
  obtain ⟨u, hu, hsync⟩ := sync_accepted (i := .mul d a b) hr hidle rfl (badOperand_two rfl ha hb) hw1
  have hmul : u.blk.readF d = montMul (s.blk.readF a) (s.blk.readF b) := hsync.readF_rd
  obtain ⟨t, ht, hsync'⟩ := sync_accepted (i := .enc d d) hsync.rstN hsync.busy rfl
    (badOperand_one rfl (hmul ▸ montMul_lt _ _)) hw2
  have henc : t.blk.readF d = montMul (u.blk.readF d) Rom.R2 := hsync'.readF_rd
  exact ⟨t, by rw [mmuln, syncAll_cons _ hu, syncAll_cons _ ht, syncAll],
    by rw [henc, hmul, montMul_R2_toNat]; exact montMul_mul_R _ _⟩

end PseudoInstructions

/-- Settles O59: WAIT by `waitLoop_done` and `waitLoop_turn`, a command with `!` by `sync_accepted` and
`sync_refused`, and each pseudo-instruction by the commands it is made of. -/
theorem pseudoInstructionResults : Obligations.PseudoInstructionResults := by
  unfold Obligations.PseudoInstructionResults
  refine ⟨fun s t turns hr => waitLoop_done (resetHeld_of_rstN hr), fun s turns hr => ?turn,
    fun i s turns hr hidle hw hlegal hturns => ?accepted,
    fun i s g turns hr hidle h hg => sync_refused turns hr hidle h hg,
    fun s d a b x w1 w2 hr hidle ha hb hw1 hw2 => ?pseudo⟩
  case turn =>
    exact ⟨polled (withEvents [] s), rfl, hr, rfl,
      waitLoop_turn (u := withEvents [] s) turns (resetHeld_of_rstN hr) (runEvents_nil s)⟩
  case accepted =>
    obtain ⟨t, ht, hsync⟩ := sync_accepted hr hidle hw (badOperand_of_operandsLegal hlegal) hturns
    exact ⟨t, ht, hsync.busy, hsync.done, hsync.err, hsync.readF⟩
  case pseudo =>
    exact ⟨clr_result hr hidle d ha, mov_result hr hidle d ha hw1 hw2, dbl2_result hr hidle d ha hw1,
      fun hx => tpl2_result hr hidle d ha hw1 hw2 hx, mmuln_result hr hidle d ha hw1 hw2 hb⟩

end Sys2Proof.Machine
end
